-- ==== Sys2Proof/Word.lean ====
section
/-! DEFINITION. The word types of the block: the host bus (20_memory.md R50), codewords (10_state.md R29) and bit
strings (00_scope.md R8). -/

namespace Sys2Proof

/-- One word of the 32-bit host bus, and one command word (R50, R70). -/
abbrev Word := BitVec 32

/-- A 12-bit word address of the host register space (R50). -/
abbrev Addr := BitVec 12

/-- A codeword, and a character code of the input buffer (R29, R27). -/
abbrev Codeword := BitVec 8

/-- A bit string in emission order: index 0 is the leftmost bit, emitted first (R8). -/
abbrev Bits := List Bool

end Sys2Proof
end

