-- ==== Sys2Proof/Syntax.lean ====
section
/-! DEFINITION. The instructions: one constructor per row of spec/opcode_table.json (30_encoding.md R71, R81), and the
three fields of a command word (R70). -/

namespace Sys2Proof

/-- The ten commands written to CMD (R71) and the two host bus operations (R81). -/
inductive Instr where
  /-- OP 0x01, R101 -/
  | alnumEncode
  /-- OP 0x02, R111 -/
  | frame
  /-- OP 0x03, R123 -/
  | ecAugment
  /-- OP 0x04, R131 -/
  | formatBuild
  /-- OP 0x05, R149 -/
  | place
  /-- OP 0x06, R161 -/
  | mask
  /-- OP 0x07, R171 -/
  | formatEmbed
  /-- OP 0x08, R181 -/
  | encode
  /-- OP 0x09, R133: the 15-bit dividend d (R74) -/
  | bchRem (d : BitVec 15)
  /-- OP 0x0A, R182 -/
  | clear
  /-- host bus read of word address a, R52 -/
  | rd (a : Addr)
  /-- host bus write of v to word address a, R53 -/
  | wr (a : Addr) (v : Word)
  deriving DecidableEq, Repr

/-- The fields of a command word, format CMDW (R70). -/
structure CmdFields where
  op : BitVec 8
  opnd : BitVec 15
  rsv : BitVec 9
  deriving DecidableEq, Repr

end Sys2Proof
end

