-- ==== Sys2Proof/WellFormed.lean ====
section
/-! DEFINITION. When a command word's fields are a command (30_encoding.md R70 to R75), check by check, and when an
instruction's operands are in range. -/

namespace Sys2Proof

/-- The opcode is one of 0x01 to 0x0A (R71, R72). -/
def CmdFields.opcodeOk (f : CmdFields) : Bool := decide (0x01 ≤ f.op.toNat ∧ f.op.toNat ≤ 0x0A)

/-- RSV is 0 (R70, R72). -/
def CmdFields.reservedOk (f : CmdFields) : Bool := decide (f.rsv = 0#9)

/-- OPND is 0 for every opcode but BCH_REM's (R70, R72). -/
def CmdFields.operandOk (f : CmdFields) : Bool := decide (f.op = 0x09#8 ∨ f.opnd = 0#15)

/-- The fields are those of a command: all three checks of R72 pass. -/
def CmdFields.wellFormed (f : CmdFields) : Bool := f.opcodeOk && f.reservedOk && f.operandOk

/-- Operands in range: 0 ≤ d < 2^15 (R71), 12-bit addresses and 32-bit words (R50). Their types say as much. -/
def Instr.wellFormed : Instr → Bool
  | .alnumEncode => true
  | .frame => true
  | .ecAugment => true
  | .formatBuild => true
  | .place => true
  | .mask => true
  | .formatEmbed => true
  | .encode => true
  | .bchRem d => decide (d.toNat < 2 ^ 15)
  | .clear => true
  | .rd a => decide (a.toNat < 2 ^ 12)
  | .wr a v => decide (a.toNat < 2 ^ 12) && decide (v.toNat < 2 ^ 32)

end Sys2Proof
end

