-- ==== Sys2Proof/Decode.lean ====
section
/-! DEFINITION. Decoding of a command word, total on all 2^32 words and rejecting by name (30_encoding.md R72), and
the encoder, from the same table (R70, R71). RD and WR are bus operations with no command word (R81). -/

namespace Sys2Proof

/-- Why a word is no command (R72, R75). Each is the block's own ILLEGAL_COMMAND. -/
inductive DecodeError where
  /-- the opcode is 0x00 or 0x0B to 0xFF -/
  | reservedOpcode (op : BitVec 8)
  /-- RSV is not 0 -/
  | reservedBits (rsv : BitVec 9)
  /-- OPND is not 0 and the opcode is not BCH_REM's -/
  | operandNotZero (opnd : BitVec 15)
  deriving DecidableEq, Repr

/-- The fields of a word: OP [7:0], OPND [22:8], RSV [31:23] (R70). -/
def fieldsOf (w : Word) : CmdFields where
  op := w.extractLsb' 0 8
  opnd := w.extractLsb' 8 15
  rsv := w.extractLsb' 23 9

/-- The opcode map (R71). -/
def commandOf (op : BitVec 8) (opnd : BitVec 15) : Option Instr :=
  if op = 0x01#8 then some .alnumEncode
  else if op = 0x02#8 then some .frame
  else if op = 0x03#8 then some .ecAugment
  else if op = 0x04#8 then some .formatBuild
  else if op = 0x05#8 then some .place
  else if op = 0x06#8 then some .mask
  else if op = 0x07#8 then some .formatEmbed
  else if op = 0x08#8 then some .encode
  else if op = 0x09#8 then some (.bchRem opnd)
  else if op = 0x0A#8 then some .clear
  else none

/-- Decode, the checks in the order of R72. -/
def decode (w : Word) : Except DecodeError Instr :=
  let f := fieldsOf w
  match commandOf f.op f.opnd with
  | none => .error (.reservedOpcode f.op)
  | some i =>
    if f.rsv ≠ 0#9 then .error (.reservedBits f.rsv)
    else if f.op ≠ 0x09#8 ∧ f.opnd ≠ 0#15 then .error (.operandNotZero f.opnd)
    else .ok i

/-- A command word of an opcode and an operand, RSV = 0 (R70). -/
def cmdWord (op : BitVec 8) (opnd : BitVec 15) : Word := 0#9 ++ opnd ++ op

/-- The command word of an instruction (R71), none for the bus operations (R81). -/
def encode : Instr → Option Word
  | .alnumEncode => some (cmdWord 0x01#8 0#15)
  | .frame => some (cmdWord 0x02#8 0#15)
  | .ecAugment => some (cmdWord 0x03#8 0#15)
  | .formatBuild => some (cmdWord 0x04#8 0#15)
  | .place => some (cmdWord 0x05#8 0#15)
  | .mask => some (cmdWord 0x06#8 0#15)
  | .formatEmbed => some (cmdWord 0x07#8 0#15)
  | .encode => some (cmdWord 0x08#8 0#15)
  | .bchRem d => some (cmdWord 0x09#8 d)
  | .clear => some (cmdWord 0x0A#8 0#15)
  | .rd _ => none
  | .wr _ _ => none

/-- What the decoder reads from a command word whose low `nbits` bits are `w`, the bits above them 0. Every command is
one 32-bit word (R78), so nothing longer is one. -/
def decodeTableWord (nbits w : Nat) : Option Instr :=
  if nbits ≤ 32 then
    match decode (BitVec.ofNat 32 (w % 2 ^ nbits)) with
    | .ok i => some i
    | .error _ => none
  else none

end Sys2Proof
end

