-- ==== Sys2Proof/Machine/Bits.lean ====
section
/-! DEFINITION. Bit strings and packed words: `bin_k` (00_scope.md R9) and words built bit by bit. -/

namespace Sys2Proof.Machine

/-- `bin_k(v)`: bit i of the string is v[k-1-i] (R9). -/
def bin (k v : Nat) : Bits := (List.range k).map fun i => v.testBit (k - 1 - i)

/-- The n-bit word whose bit i is `f i`. -/
def wordOf : (n : Nat) → (Nat → Bool) → BitVec n
  | 0, _ => 0#0
  | n + 1, f => BitVec.cons (f n) (wordOf n f)

/-- Stream bit j of a bit string, 0 past its end. -/
def streamBit (b : Bits) (j : Nat) : Bool := b.getD j false

end Sys2Proof.Machine
end

