-- ==== Sys2Proof/Config.lean ====
section
/-! DEFINITION. The fixed constants of 00_scope.md R6, and the open parameters and free values (R7, R11): opaque
constants with no body, so that nothing can be proved about their values. -/

namespace Sys2Proof

/-- `NDATA`: data codewords (R6). -/
def Config.ndata : Nat := 9

/-- `NEC`: error-correction codewords, the count sent to the collaborator (R6, R64). -/
def Config.nec : Nat := 17

/-- `NCW`: codewords in all (R6). -/
def Config.ncw : Nat := 26

/-- `NBITS`: bits to place (R6). -/
def Config.nbits : Nat := 208

/-- `DATABITS`: bits of framed data (R6). -/
def Config.databits : Nat := 72

/-- `MODE_IND` (R6). -/
def Config.modeInd : Bits := [false, false, true, false]

/-- `COUNT_W`, the width of the character-count field (R6). -/
def Config.countW : Nat := 9

/-- `TERM` (R6). -/
def Config.term : Bits := [false, false, false, false]

/-- `PAD0` = 11101100 (R6). -/
def Config.pad0 : Bits := [true, true, true, false, true, true, false, false]

/-- `PAD1` = 00010001 (R6). -/
def Config.pad1 : Bits := [false, false, false, true, false, false, false, true]

/-- `ECL`, level H (R6). -/
def Config.ecl : BitVec 2 := 0b10#2

/-- `MASK_ID` (R6). -/
def Config.maskId : BitVec 3 := 0b011#3

/-- `BCH_G`, the BCH(15,5) generator (R6, R130). -/
def Config.bchG : BitVec 15 := 0x537#15

/-- `FMT_XOR` (R6). -/
def Config.fmtXor : BitVec 15 := 0x5412#15

/-- `CAP`, the most characters one symbol takes (R6, R105). -/
def Config.cap : Nat := 10

/-- What the Reed-Solomon collaborator answers (R122). The source gives a failure no form: a number names it
(DESIGN CHOICE, log 4). -/
inductive RsAnswer where
  | ok (seq : List Codeword)
  | fail (e : Nat)
  deriving DecidableEq, Repr, Inhabited

/-- `RS`, the collaborator, on every input its table in State does not list (R7, R122; log 3). -/
opaque Config.rs : Vector Codeword 9 → RsAnswer

/-- `RS_ERR_INFO`, the 32-bit detail of a collaborator failure (R7, R125; log 4). -/
opaque Config.rsErrInfo : Nat → Word

/-- `LATENCY`, the cycles a command word takes (R7). No rule and no definition uses it (R232; log 13). -/
opaque Config.latency : Word → Nat

/-- `draw` number n: a free value with no law (R11; log 2). -/
opaque Config.draw : Nat → Word

end Sys2Proof
end

