-- ==== Sys2Proof/Machine/State.lean ====
section
/-! DEFINITION. The state of the block, all of it (10_state.md R22 to R39), with the model's own fields for the host,
the collaborator and the free values; the ways a step can stop; reset (70_reset_and_hazards.md R220). -/

namespace Sys2Proof.Machine

/-- STATUS.PHASE (R24). The value 7 is never produced and has no name. -/
inductive Phase where
  | idle
  | encoded
  | framed
  | augmented
  | placed
  | masked
  | embedded
  deriving DecidableEq, Repr

/-- STATUS.ERR (R200). The value 7 is never produced and has no name. -/
inductive ErrCode where
  | none
  | invalidCharacter
  | capacityExceeded
  | layoutMismatch
  | rsFailure
  | illegalCommand
  | sequenceError
  deriving DecidableEq, Repr

/-- One cell of the Symbol Matrix: FILLED and VAL, 1 = Dark (R30, R40). Its TAG is a constant (R140). -/
structure Cell where
  filled : Bool
  val : Bool
  deriving DecidableEq, Repr

/-- The 21 by 21 Symbol Matrix, row by row (R30). -/
abbrev SymbolMatrix := Vector (Vector Cell 21) 21

/-- DIR of the zig-zag machine (R35). -/
inductive Dir where
  | up
  | down
  deriving DecidableEq, Repr

/-- SUB of the zig-zag machine (R35). -/
inductive Sub where
  | right
  | left
  deriving DecidableEq, Repr

/-- The registers RC, ROW, DIR, SUB and END of the zig-zag machine (R35). -/
structure ZigZag where
  rc : BitVec 5
  row : BitVec 5
  dir : Dir
  sub : Sub
  ended : Bool
  deriving DecidableEq, Repr

/-- The start state of the traversal (R143). -/
def ZigZag.start : ZigZag where
  rc := 20#5
  row := 20#5
  dir := .up
  sub := .right
  ended := false

/-- A request on the collaborator port: CW[0..8] in order, and ecLen (R64, R122). -/
structure RsRequest where
  data : Vector Codeword 9
  ecLen : Nat
  deriving DecidableEq, Repr

/-- One move of a run, in the order the moves happen (R59): a host access, the block's own next move, the
collaborator's answer, or a reset. DESIGN CHOICE (log 5). -/
inductive Input where
  /-- the host reads word address a (R52) -/
  | rd (a : Addr)
  /-- the host writes v to word address a (R53) -/
  | wr (a : Addr) (v : Word)
  /-- the block makes its next move (R57) -/
  | block
  /-- the collaborator answers (R122) -/
  | answer
  /-- the platform asserts and releases RESET (R220) -/
  | reset
  deriving DecidableEq, Repr

structure State where
  /-- STATUS.BUSY (R24) -/
  busy : Bool
  /-- STATUS.ERR (R24, R200) -/
  err : ErrCode
  /-- STATUS.PHASE (R24, R25) -/
  phase : Phase
  /-- STATUS.FMT_VALID (R24, R31) -/
  fmtValid : Bool
  /-- ERR_INFO (R26) -/
  errInfo : Word
  /-- IN_LEN (R27) -/
  inLen : BitVec 8
  /-- IN_CHAR[0..254] (R27) -/
  inChar : Vector Codeword 255
  /-- BITLEN (R28) -/
  bitLen : BitVec 6
  /-- BITSTR[0..1] (R28) -/
  bitStr : Vector Word 2
  /-- CW[0..25] (R29) -/
  cw : Vector Codeword 26
  /-- FILLED and VAL of every cell (R30) -/
  matrix : SymbolMatrix
  /-- FMT (R31) -/
  fmt : BitVec 15
  /-- BCH_RESULT (R32) -/
  bchResult : BitVec 10
  /-- N_LATCH (R34) -/
  nLatch : BitVec 8
  /-- RC, ROW, DIR, SUB and END (R35) -/
  zig : ZigZag
  /-- BIDX (R35) -/
  bidx : BitVec 8
  /-- CMD_LATCH (R36, R23) -/
  cmdLatch : Word
  /-- STAGE (R36, R181) -/
  stage : BitVec 3
  /-- the collaborator port, which holds at most one request (R221). RS_PENDING (R36) is 1 exactly when it holds one
  (R122), see `State.rsPending`. -/
  rsPort : Option RsRequest
  /-- the model's own: answers of the pure function RS (R122) by input, Config.rs elsewhere (log 3) -/
  rsTable : List (Vector Codeword 9 × RsAnswer)
  /-- the model's own: the moves still to come, first first (R59; log 5) -/
  inputs : List Input
  /-- the model's own: the word the last host read returned (R52; log 8) -/
  readData : Word
  /-- the model's own: how many draws have been taken (R11; log 2) -/
  draws : Nat
  deriving DecidableEq, Repr

/-- How the model stops with a fault. -/
inductive Fault where
  /-- `fault HostViolation` (R206, R226): raised by WR alone, on a write while BUSY = 1. Safe: the spec gives the run
  no further meaning. -/
  | hostViolation
  deriving DecidableEq, Repr

/-- How the model stops for want of a meaning. -/
inductive Refusal where
  /-- raised by an arm of `exec` for an instruction with no meaning yet; no arm does. Safe. -/
  | notModelled (mnemonic : String)
  deriving DecidableEq, Repr

/-- The state after a reset whose draws are numbered from `k` (R39, R220): IN_CHAR[i] is draw k + i and VAL(r,c) is a
draw too (log 1). -/
def State.resetAt (k : Nat) : State where
  busy := false
  err := .none
  phase := .idle
  fmtValid := false
  errInfo := 0#32
  inLen := 0#8
  inChar := Vector.ofFn fun i => (Config.draw (k + i.val)).setWidth 8
  bitLen := 0#6
  bitStr := Vector.replicate 2 0#32
  cw := Vector.replicate 26 0#8
  matrix := Vector.ofFn fun r => Vector.ofFn fun c =>
    { filled := false, val := (Config.draw (k + 255 + 21 * r.val + c.val)).getLsbD 0 }
  fmt := 0#15
  bchResult := 0#10
  nLatch := 0#8
  zig := ZigZag.start
  bidx := 0#8
  cmdLatch := 0#32
  stage := 0#3
  rsPort := none
  rsTable := []
  inputs := []
  readData := 0#32
  draws := k + 696

/-- The machine right after reset (R39, R220). -/
def State.reset : State := State.resetAt 0

end Sys2Proof.Machine
end

