-- ==== Sys2Proof/Machine/Ops.lean ====
section
/-! DEFINITION. The shared operations: draws, the completion update (20_memory.md R57), raising an error
(60_exceptions.md R202; there is no return from one, R205), matrix cells (10_state.md R30) and the collaborator port
(42_ec_augment.md R122). -/

namespace Sys2Proof.Machine

/-! ### Draws -/

/-- The next draw (R11). -/
def State.nextDraw (s : State) : Word := Config.draw s.draws

/-! ### The completion update and errors -/

/-- What every completion does beside the command's own writes: STAGE <- 0, BUSY <- 0 (R180). -/
def State.complete (s : State) : State := { s with busy := false, stage := 0#3 }

/-- Completion without error: ERR <- 0, ERR_INFO <- 0 (R26, R205). -/
def State.succeed (s : State) : State := { s.complete with err := .none, errInfo := 0#32 }

/-- The stage errors of R202 (a); the others are refused commands, R202 (b). -/
def ErrCode.isStageError : ErrCode → Bool
  | .none => false
  | .invalidCharacter => true
  | .capacityExceeded => true
  | .layoutMismatch => true
  | .rsFailure => true
  | .illegalCommand => false
  | .sequenceError => false

/-- `raise E(info)` (R202): ERR and ERR_INFO are written and the command ends; a stage error also sets PHASE <- 0 and
RS_PENDING <- 0. -/
def State.raise (e : ErrCode) (info : Word) (s : State) : State :=
  if e.isStageError then
    { s.complete with err := e, errInfo := info, phase := .idle, rsPort := none }
  else
    { s.complete with err := e, errInfo := info }

/-- A refused command: its ERR_INFO is the command word (R202 (b)). -/
def State.refuse (e : ErrCode) (s : State) : State := s.raise e s.cmdLatch

/-- How a stage's body ends: with its writes done, or with an error raised in the state the earlier stages left
(R181, R202). -/
inductive StageOutcome where
  | done (s : State)
  | error (e : ErrCode) (info : Word) (s : State)
  deriving DecidableEq, Repr

/-- Run the next stage, or stop at the first error (R181). -/
def StageOutcome.andThen (o : StageOutcome) (f : State → StageOutcome) : StageOutcome :=
  match o with
  | .done s => f s
  | .error e info s => .error e info s

/-- The completion update after the command's own rule (R57, R180). -/
def StageOutcome.finish : StageOutcome → State
  | .done s => s.succeed
  | .error e info s => s.raise e info

/-! ### SymbolMatrix cells -/

/-- Cell (r, c); outside the matrix, an unfilled one (no command reads there). -/
def SymbolMatrix.cell (m : SymbolMatrix) (r c : Nat) : Cell :=
  if h : r < 21 ∧ c < 21 then m[r][c] else { filled := false, val := false }

/-- Write cell (r, c); outside the matrix, nothing (no command writes there, log 12). -/
def SymbolMatrix.write (m : SymbolMatrix) (r c : Nat) (x : Cell) : SymbolMatrix :=
  if h : r < 21 ∧ c < 21 then m.set r (m[r].set c x) else m

/-- Every cell from its coordinates and its old contents. -/
def SymbolMatrix.mapCells (m : SymbolMatrix) (f : Nat → Nat → Cell → Cell) : SymbolMatrix :=
  Vector.ofFn fun r => Vector.ofFn fun c => f r.val c.val m[r][c]

/-- FILLED <- 1 and VAL <- v (R149, R171). -/
def SymbolMatrix.fill (m : SymbolMatrix) (r c : Nat) (v : Bool) : SymbolMatrix := m.write r c { filled := true, val := v }

/-! ### The collaborator port -/

/-- RS_PENDING (R36, R122). -/
def State.rsPending (s : State) : Bool := s.rsPort.isSome

/-- CW[0..8] (R29). -/
def State.dataCodewords (s : State) : Vector Codeword 9 := Vector.ofFn fun k => s.cw[k.val]

/-- RS(data), a pure function (R122): the collaborator's table first, Config.rs elsewhere (log 3). -/
def State.rsAnswer (s : State) (data : Vector Codeword 9) : RsAnswer :=
  (s.rsTable.lookup data).getD (Config.rs data)

/-- The request: RS_PENDING <- 1, send (data, 17) (R122, R64). -/
def State.sendRequest (data : Vector Codeword 9) (s : State) : State :=
  { s with rsPort := some { data := data, ecLen := Config.nec } }

/-! ### Reset -/

/-- RESET during a run (R220, R221): every item of the block takes its reset value, the port is emptied. The model's
own fields go on: the collaborator, the moves to come, the host's last word and the numbering of draws (log 16). -/
def State.resetFrom (s : State) : State :=
  { State.resetAt s.draws with rsTable := s.rsTable, inputs := s.inputs, readData := s.readData }

end Sys2Proof.Machine
end

