-- ==== Sys2Proof/Machine/Flags.lean ====
section
/-! DEFINITION. The flags: the STATUS word (10_state.md R24, R58), and the phase precondition of every command
(30_encoding.md R73). -/

namespace Sys2Proof.Machine

/-- PHASE as a number (R24). -/
def Phase.code : Phase → BitVec 3
  | .idle => 0#3
  | .encoded => 1#3
  | .framed => 2#3
  | .augmented => 3#3
  | .placed => 4#3
  | .masked => 5#3
  | .embedded => 6#3

/-- ERR as a number (R200). -/
def ErrCode.code : ErrCode → BitVec 3
  | .none => 0#3
  | .invalidCharacter => 1#3
  | .capacityExceeded => 2#3
  | .layoutMismatch => 3#3
  | .rsFailure => 4#3
  | .illegalCommand => 5#3
  | .sequenceError => 6#3

/-- STATUS: BUSY [0], ERR [3:1], PHASE [6:4], FMT_VALID [7], 0 above (R24). -/
def State.status (s : State) : Word :=
  0#24 ++ BitVec.ofBool s.fmtValid ++ s.phase.code ++ s.err.code ++ BitVec.ofBool s.busy

/-- A read of STATUS while BUSY = 1: bit 0 is 1, bits [31:1] are a draw (R58). -/
def statusWhileBusy (draw : Word) : Word := draw ||| 1#32

/-- The phase precondition (R73). RD and WR have none. -/
def phaseOk (i : Instr) (s : State) : Bool :=
  match i with
  | .alnumEncode => true
  | .frame => decide (s.phase = .encoded)
  | .ecAugment => decide (s.phase = .framed)
  | .formatBuild => true
  | .place => decide (s.phase = .augmented)
  | .mask => decide (s.phase = .placed ∨ s.phase = .masked)
  | .formatEmbed => decide (s.phase = .masked ∧ s.fmtValid = true)
  | .encode => true
  | .bchRem _ => true
  | .clear => true
  | .rd _ => true
  | .wr _ _ => true

/-- What the phase check leads to (R72, R73): the command's own rule, or SEQUENCE_ERROR(w). -/
def State.ifPhase (s : State) (i : Instr) (body : State → State) : State :=
  if phaseOk i s then body s else s.refuse .sequenceError

end Sys2Proof.Machine
end

