-- ==== Sys2Proof/Machine/Operands.lean ====
section
/-! DEFINITION. The operand forms: BCH_REM's immediate (30_encoding.md R74), and the address operand of RD and WR, which
names a register (10_state.md R22). No other command has an operand. -/

namespace Sys2Proof.Machine

/-- OPND = w[22:8], zero-extended, the dividend of BCH_REM (R74, R133). -/
def dividendOf (w : Word) : BitVec 15 := w.extractLsb' 8 15

/-- The host-visible registers (R22). -/
inductive RegName where
  | cmd
  | status
  | errInfo
  | inLen
  | bitLen
  | fmt
  | bchResult
  | bitStr (k : Fin 2)
  | cw (k : Fin 26)
  | matrixRow (r : Fin 21)
  | inChar (i : Fin 255)
  deriving DecidableEq, Repr

/-- The register an address names (R22); none for a reserved address (R55). -/
def regAt (a : Addr) : Option RegName :=
  let n := a.toNat
  if n = 0x000 then some .cmd
  else if n = 0x001 then some .status
  else if n = 0x002 then some .errInfo
  else if n = 0x003 then some .inLen
  else if n = 0x004 then some .bitLen
  else if n = 0x005 then some .fmt
  else if n = 0x006 then some .bchResult
  else if h : 0x008 ≤ n ∧ n < 0x008 + 2 then some (.bitStr ⟨n - 0x008, by omega⟩)
  else if h : 0x020 ≤ n ∧ n < 0x020 + 26 then some (.cw ⟨n - 0x020, by omega⟩)
  else if h : 0x040 ≤ n ∧ n < 0x040 + 21 then some (.matrixRow ⟨n - 0x040, by omega⟩)
  else if h : 0x100 ≤ n ∧ n < 0x100 + 255 then some (.inChar ⟨n - 0x100, by omega⟩)
  else none

end Sys2Proof.Machine
end

