-- ==== Sys2Proof/Machine/HostPort.lean ====
section
/-! DEFINITION. The host port: RD and WR (20_memory.md R50 to R58). -/

namespace Sys2Proof.Machine

/-- MATRIX_ROW[r]: bit c is VAL(r,c) where FILLED(r,c) = 1 and a draw elsewhere, bits [31:21] are 0 (R30). -/
def rowWord (m : SymbolMatrix) (r : Nat) (draw : Word) : Word :=
  wordOf 32 fun c =>
    decide (c < 21) && (if (m.cell r c).filled then (m.cell r c).val else draw.getLsbD c)

/-- A register's value outside BUSY, reserved bits 0 (R22, R52). CMD reads 0 (R23). -/
def regValue (s : State) (draw : Word) : RegName → Word
  | .cmd => 0#32
  | .status => s.status
  | .errInfo => s.errInfo
  | .inLen => s.inLen.setWidth 32
  | .bitLen => s.bitLen.setWidth 32
  | .fmt => s.fmt.setWidth 32
  | .bchResult => s.bchResult.setWidth 32
  | .bitStr k => s.bitStr[k]
  | .cw k => s.cw[k].setWidth 32
  | .matrixRow r => rowWord s.matrix r.val draw
  | .inChar i => s.inChar[i].setWidth 32

/-- `MemRead(a, 4)` (R52, R58). While BUSY = 1 every read but that of STATUS bit 0 is a draw, of a reserved address
too (log 9); a reserved address reads 0 otherwise (R55). -/
def State.hostRead (s : State) (a : Addr) : Word :=
  if s.busy then
    if regAt a = some .status then statusWhileBusy s.nextDraw else s.nextDraw
  else
    match regAt a with
    | some r => regValue s s.nextDraw r
    | none => 0#32

/-- A CMD write outside BUSY: CMD_LATCH <- w, BUSY <- 1 (R23, R180). -/
def State.startCommand (w : Word) (s : State) : State := { s with cmdLatch := w, busy := true }

/-- `MemWrite(a, 4, v)` outside BUSY (R53): CMD, IN_LEN and IN_CHAR; every other address ignores it (R55). -/
def State.hostWrite (s : State) (a : Addr) (v : Word) : State :=
  match regAt a with
  | some .cmd => s.startCommand v
  | some .inLen => { s with inLen := v.setWidth 8 }
  | some (.inChar i) => { s with inChar := s.inChar.set i (v.setWidth 8) }
  | some .status => s
  | some .errInfo => s
  | some .bitLen => s
  | some .fmt => s
  | some .bchResult => s
  | some (.bitStr _) => s
  | some (.cw _) => s
  | some (.matrixRow _) => s
  | none => s

/-- RD a (R52): the word goes back to the host, and nothing of the block changes. -/
def execRd (a : Addr) (s : State) : Host.Outcome State Fault Refusal :=
  .next { s with readData := s.hostRead a, draws := s.draws + 1 }

/-- WR a, v (R53): a write while BUSY = 1 is `fault HostViolation` (R226). -/
def execWr (a : Addr) (v : Word) (s : State) : Host.Outcome State Fault Refusal :=
  if s.busy then .fault .hostViolation else .next (s.hostWrite a v)

end Sys2Proof.Machine
end

