-- ==== Sys2Proof/Machine/Alnum.lean ====
section
/-! DEFINITION. The alphanumeric-mode bit encoder, ALNUM_ENCODE (40_alnum_encoder.md), with the alphanumeric table
(30_encoding.md R76). -/

namespace Sys2Proof.Machine

/-- The 45 codes of the alphabet, each at the position that is its value (R76). -/
def alphabet : List Codeword :=
  [0x30#8, 0x31#8, 0x32#8, 0x33#8, 0x34#8, 0x35#8, 0x36#8, 0x37#8, 0x38#8, 0x39#8] ++
  [0x41#8, 0x42#8, 0x43#8, 0x44#8, 0x45#8, 0x46#8, 0x47#8, 0x48#8, 0x49#8, 0x4A#8, 0x4B#8, 0x4C#8, 0x4D#8] ++
  [0x4E#8, 0x4F#8, 0x50#8, 0x51#8, 0x52#8, 0x53#8, 0x54#8, 0x55#8, 0x56#8, 0x57#8, 0x58#8, 0x59#8, 0x5A#8] ++
  [0x20#8, 0x24#8, 0x25#8, 0x2A#8, 0x2B#8, 0x2D#8, 0x2E#8, 0x2F#8, 0x3A#8]

/-- `TABLE(code)`, defined for the 45 codes of R76 only (R77). -/
def alnumValue (code : Codeword) : Option Nat := alphabet.idxOf? code

/-- A code of the alphabet (R76, R77). -/
def inAlphabet (code : Codeword) : Bool := (alnumValue code).isSome

/-- The loop of R100 on table values: 11 bits a full pair, 6 bits for a trailing one. -/
def alnumBits : List Nat → Bits
  | v :: w :: rest => bin 11 (v * 45 + w) ++ alnumBits rest
  | [v] => bin 6 v
  | [] => []

/-- `ALNUM(s)`, for a string in the alphabet (R100). -/
def alnum (s : List Codeword) : Bits := alnumBits (s.filterMap alnumValue)

/-- The smallest index holding a code outside the alphabet (R101). -/
def firstInvalid (s : List Codeword) : Option Nat := s.findIdx? fun c => !inAlphabet c

/-- The input string IN_CHAR[0 .. n-1], n = IN_LEN (R27). -/
def State.inputString (s : State) : List Codeword := s.inChar.toList.take s.inLen.toNat

/-- BITSTR[k] of a bit string: stream bit j is bit 31 - (j mod 32) of BITSTR[j div 32], 0 past the end (R28). -/
def packBits (b : Bits) : Vector Word 2 :=
  Vector.ofFn fun k => wordOf 32 fun i => streamBit b (32 * k.val + (31 - i))

/-- The body of ALNUM_ENCODE (R101). -/
def alnumBody (s : State) : StageOutcome :=
  let n := s.inLen.toNat
  match firstInvalid s.inputString with
  | some i => .error .invalidCharacter (BitVec.ofNat 32 i) s
  | none =>
    if n > Config.cap then .error .capacityExceeded (BitVec.ofNat 32 n) s
    else
      let b := alnum s.inputString
      .done { s with
        bitStr := packBits b
        bitLen := BitVec.ofNat 6 b.length
        nLatch := s.inLen
        phase := .encoded }

/-- ALNUM_ENCODE (R101). -/
def execAlnumEncode (s : State) : Host.Outcome State Fault Refusal :=
  .next (s.ifPhase .alnumEncode fun s => (alnumBody s).finish)

end Sys2Proof.Machine
end

