-- ==== Sys2Proof/Machine/EcAugment.lean ====
section
/-! DEFINITION. The error-correction augmenter port, EC_AUGMENT (42_ec_augment.md). -/

namespace Sys2Proof.Machine

/-- EC_AUGMENT from the answer on (R123): RS_PENDING <- 0; a failure is RS_FAILURE (R125), a wrong length is
LAYOUT_MISMATCH with the bits offered, low 32 bits (R124), and 26 codewords are stored as returned (R126). -/
def augmentBody (a : RsAnswer) (s : State) : StageOutcome :=
  let s := { s with rsPort := none }
  match a with
  | .fail e => .error .rsFailure (Config.rsErrInfo e) s
  | .ok seq =>
    if h : seq.length = 26 then .done { s with cw := ⟨seq.toArray, by simp [h]⟩, phase := .augmented }
    else .error .layoutMismatch (BitVec.ofNat 32 (8 * seq.length)) s

/-- EC_AUGMENT (R123). With no request on the port its move is the request, and BUSY stays 1 (R122). With the request
on the port, `step` gives it its move when the collaborator answers: RS of what was sent. -/
def execEcAugment (s : State) : Host.Outcome State Fault Refusal :=
  .next (s.ifPhase .ecAugment fun s =>
    match s.rsPort with
    | none => s.sendRequest s.dataCodewords
    | some req => (augmentBody (s.rsAnswer req.data) s).finish)

end Sys2Proof.Machine
end

