-- ==== Sys2Proof/Machine/Embed.lean ====
section
/-! DEFINITION. The format embedder, FORMAT_EMBED (46_format_embedder.md). -/

namespace Sys2Proof.Machine

/-- s[k] of s = bin_15(FMT): FMT[14-k] (R170). -/
def fmtBit (fmt : BitVec 15) (k : Nat) : Bool := fmt.getLsbD (14 - k)

/-- r[k] of r = s reversed: FMT[k] (R170). -/
def fmtBitReversed (fmt : BitVec 15) (k : Nat) : Bool := fmt.getLsbD k

/-- One write of a value to a cell. -/
structure CellWrite where
  row : Nat
  col : Nat
  val : Bool
  deriving DecidableEq, Repr

/-- The horizontal copy, row 8 (R172). -/
def horizontalCopy (fmt : BitVec 15) : List CellWrite :=
  ((List.range 6).map fun c => ⟨8, c, fmtBit fmt c⟩) ++
  [⟨8, 7, fmtBit fmt 6⟩, ⟨8, 8, fmtBit fmt 7⟩] ++
  ((List.range 8).map fun i => ⟨8, 13 + i, fmtBit fmt (7 + i)⟩)

/-- The vertical copy, column 8 (R173). -/
def verticalCopy (fmt : BitVec 15) : List CellWrite :=
  ((List.range 6).map fun j => ⟨j, 8, fmtBitReversed fmt j⟩) ++
  [⟨7, 8, fmtBitReversed fmt 6⟩, ⟨8, 8, fmtBitReversed fmt 7⟩] ++
  ((List.range 7).map fun i => ⟨14 + i, 8, fmtBitReversed fmt (8 + i)⟩)

/-- The writes in their order; FILLED <- 1 for each cell written (R171). -/
def embedFormat (fmt : BitVec 15) (m : SymbolMatrix) : SymbolMatrix :=
  (horizontalCopy fmt ++ verticalCopy fmt).foldl (fun m w => m.fill w.row w.col w.val) m

/-- The body of FORMAT_EMBED (R171). -/
def embedBody (s : State) : StageOutcome :=
  .done { s with matrix := embedFormat s.fmt s.matrix, phase := .embedded }

/-- FORMAT_EMBED (R171). -/
def execFormatEmbed (s : State) : Host.Outcome State Fault Refusal :=
  .next (s.ifPhase .formatEmbed fun s => (embedBody s).finish)

end Sys2Proof.Machine
end

