-- ==== Sys2Proof/Machine/Format.lean ====
section
/-! DEFINITION. The format-information builder and the BCH(15,5) divider, FORMAT_BUILD and BCH_REM
(43_format_info.md). -/

namespace Sys2Proof.Machine

/-- `bitlen(v)`: one more than the index of the highest 1 bit, 0 for 0 (R130). -/
def bitlen (v : BitVec 15) : Nat := if v = 0#15 then 0 else Nat.log2 v.toNat + 1

/-- The division loop (R130): while the degree is 10 or more, XOR the divisor padded to v's length; `fuel` bounds it. -/
def bchLoop : (fuel : Nat) → BitVec 15 → BitVec 15
  | 0, v => v
  | fuel + 1, v => if bitlen v ≥ 11 then bchLoop fuel (v ^^^ (Config.bchG <<< (bitlen v - 11))) else v

/-- `BCHREM(d)` (R130): at most 5 steps for a 15-bit d, and the result is below 2^10. -/
def bchrem (d : BitVec 15) : BitVec 10 := (bchLoop 5 d).setWidth 10

/-- The payload ECL followed by MASK_ID (R131). -/
def formatPayload : BitVec 5 := Config.ecl ++ Config.maskId

/-- Payload ‖ parity, XORed with FMT_XOR (R131, R135). -/
def formatField (p : BitVec 5) : BitVec 15 := (p ++ bchrem (p ++ 0#10)) ^^^ Config.fmtXor

/-- The body of FORMAT_BUILD (R131). -/
def formatBuildBody (s : State) : StageOutcome :=
  .done { s with fmt := formatField formatPayload, fmtValid := true }

/-- FORMAT_BUILD (R131). -/
def execFormatBuild (s : State) : Host.Outcome State Fault Refusal :=
  .next (s.ifPhase .formatBuild fun s => (formatBuildBody s).finish)

/-- BCH_REM d (R133). -/
def execBchRem (d : BitVec 15) (s : State) : Host.Outcome State Fault Refusal :=
  .next (s.ifPhase (.bchRem d) fun s => State.succeed { s with bchResult := bchrem d })

end Sys2Proof.Machine
end

