-- ==== Sys2Proof/Machine/Frame.lean ====
section
/-! DEFINITION. The codeword framer, FRAME (41_codeword_framer.md). -/

namespace Sys2Proof.Machine

/-- Zero bits to a byte boundary (R110). -/
def padToByte (t : Bits) : Bits := t ++ List.replicate ((8 - t.length % 8) % 8) false

/-- The k-th pad codeword: 11101100 first, then alternating (R110). -/
def padWord (k : Nat) : Bits := if k % 2 = 0 then Config.pad0 else Config.pad1

/-- Pad codewords until 72 bits, the next one numbered k (R110); `fuel` bounds the loop. -/
def padToData : (fuel k : Nat) → Bits → Bits
  | 0, _, t => t
  | fuel + 1, k, t => if t.length < Config.databits then padToData fuel (k + 1) (t ++ padWord k) else t

/-- Mode indicator, count, data and terminator, before padding (R110). -/
def frameHead (n : Nat) (b : Bits) : Bits := Config.modeInd ++ bin Config.countW n ++ b ++ Config.term

/-- `FRAMESTREAM(n, b)` (R110). At most 9 pad codewords fit in 72 bits. -/
def frameStream (n : Nat) (b : Bits) : Bits := padToData Config.ndata 0 (padToByte (frameHead n b))

/-- Codeword k of a stream: stream bit 8k + j is bit 7 - j (R63 (b)). -/
def streamCodeword (t : Bits) (k : Nat) : Codeword := wordOf 8 fun i => streamBit t (8 * k + (7 - i))

/-- The first BITLEN bits of BITSTR (R28, R111). -/
def State.bitString (s : State) : Bits :=
  (List.range s.bitLen.toNat).map fun j => (s.bitStr.toList.getD (j / 32) 0#32).getLsbD (31 - j % 32)

/-- The body of FRAME (R111). The capacity check is the source's and cannot fire in PHASE 1. -/
def frameBody (s : State) : StageOutcome :=
  let n := s.nLatch.toNat
  if n > Config.cap then .error .capacityExceeded (BitVec.ofNat 32 n) s
  else
    let t := frameStream n s.bitString
    .done { s with
      cw := Vector.ofFn fun k => if k.val < Config.ndata then streamCodeword t k.val else s.cw[k.val]
      phase := .framed }

/-- FRAME (R111). -/
def execFrame (s : State) : Host.Outcome State Fault Refusal :=
  .next (s.ifPhase .frame fun s => (frameBody s).finish)

end Sys2Proof.Machine
end

