-- ==== Sys2Proof/Machine/Template.lean ====
section
/-! DEFINITION. The function-pattern template ROM, TAG(r,c) (44_matrix_placer.md R140 to R142). -/

namespace Sys2Proof.Machine

/-- The template tag of a cell (R13, R140). -/
inductive Tag where
  | light
  | dark
  | formatReserved
  | dataSlot
  deriving DecidableEq, Repr

/-- |x - y|. -/
def gap (x y : Nat) : Nat := (x - y) + (y - x)

/-- Item 2: the finder pattern whose top-left corner is (r0, c0), if the cell lies in it. -/
def finderAt (r0 c0 r c : Nat) : Option Tag :=
  if r0 ≤ r ∧ r < r0 + 7 ∧ c0 ≤ c ∧ c < c0 + 7 then
    some (if max (gap (r - r0) 3) (gap (c - c0) 3) = 2 then .light else .dark)
  else none

/-- Item 2: the three finder patterns. -/
def finder (r c : Nat) : Option Tag :=
  (finderAt 0 0 r c).or ((finderAt 0 14 r c).or (finderAt 14 0 r c))

/-- Item 3: the separators. -/
def isSeparator (r c : Nat) : Bool :=
  decide ((r = 7 ∧ c ≤ 7) ∨ (c = 7 ∧ r ≤ 7) ∨ (r = 7 ∧ 13 ≤ c) ∨ (c = 13 ∧ r ≤ 7) ∨
    (r = 13 ∧ c ≤ 7) ∨ (c = 7 ∧ 13 ≤ r))

/-- Item 4: the timing patterns. -/
def timing (r c : Nat) : Option Tag :=
  if r = 6 ∧ 8 ≤ c ∧ c ≤ 12 then some (if c % 2 = 0 then .dark else .light)
  else if c = 6 ∧ 8 ≤ r ∧ r ≤ 12 then some (if r % 2 = 0 then .dark else .light)
  else none

/-- Item 6: the FormatReserved cells. -/
def isFormatReserved (r c : Nat) : Bool :=
  decide ((r = 8 ∧ (c ≤ 5 ∨ c = 7 ∨ c = 8 ∨ 13 ≤ c)) ∨ (c = 8 ∧ (r ≤ 5 ∨ r = 7 ∨ 14 ≤ r)))

/-- TAG(r,c): a later item of R140 overrides an earlier one, so the last is asked first. -/
def tag (r c : Nat) : Tag :=
  if isFormatReserved r c then .formatReserved
  else if r = 13 ∧ c = 8 then .dark
  else
    match timing r c with
    | some t => t
    | none =>
      if isSeparator r c then .light
      else
        match finder r c with
        | some t => t
        | none => .dataSlot

/-- Every cell, row by row (R10). -/
def allCells : List (Nat × Nat) := (List.range 21).flatMap fun r => (List.range 21).map fun c => (r, c)

/-- How many cells carry a tag (R141). -/
def tagCount (t : Tag) : Nat := allCells.countP fun p => decide (tag p.1 p.2 = t)

end Sys2Proof.Machine
end

