-- ==== Sys2Proof/Machine/Mask.lean ====
section
/-! DEFINITION. The mask-pattern-3 applicator, MASK (45_masker.md). -/

namespace Sys2Proof.Machine

/-- `MASK3(r, c)` (R160). -/
def mask3 (r c : Nat) : Bool := decide ((r + c) % 3 = 0)

/-- The flip set FLIP (R160). -/
def inFlip (r c : Nat) : Bool := decide (tag r c = .dataSlot) && mask3 r c

/-- VAL <- NOT VAL on the cells of FLIP (R161). -/
def maskCell (r c : Nat) (x : Cell) : Cell := if inFlip r c then { x with val := !x.val } else x

/-- The body of MASK (R161). -/
def maskBody (s : State) : StageOutcome :=
  .done { s with
    matrix := s.matrix.mapCells maskCell
    phase := if s.phase = .placed then .masked else .placed }

/-- MASK (R161). -/
def execMask (s : State) : Host.Outcome State Fault Refusal :=
  .next (s.ifPhase .mask fun s => (maskBody s).finish)

end Sys2Proof.Machine
end

