-- ==== Sys2Proof/Machine/Place.lean ====
section
/-! DEFINITION. The zig-zag traversal and the matrix placer, PLACE (44_matrix_placer.md R143 to R151). -/

namespace Sys2Proof.Machine

/-- DIR <- opposite(DIR) (R145). -/
def Dir.opposite : Dir → Dir
  | .up => .down
  | .down => .up

/-- The current position, while END = 0 (R144). -/
def ZigZag.pos (z : ZigZag) : Nat × Nat :=
  match z.sub with
  | .right => (z.row.toNat, z.rc.toNat)
  | .left => (z.row.toNat, z.rc.toNat - 1)

/-- The strip boundary: the next strip two columns to the left, column 6 skipped, or the end (R145, R146). -/
def ZigZag.nextStrip (z : ZigZag) : ZigZag :=
  if z.rc = 1#5 then { z with ended := true }
  else
    { z with rc := if z.rc - 2#5 = 6#5 then 5#5 else z.rc - 2#5, dir := z.dir.opposite }

/-- One step of the traversal, from a state with END = 0 (R145). -/
def ZigZag.step (z : ZigZag) : ZigZag :=
  match z.sub with
  | .right => { z with sub := .left }
  | .left =>
    let z := { z with sub := .right }
    match z.dir with
    | .up => if z.row.toNat > 0 then { z with row := z.row - 1#5 } else z.nextStrip
    | .down => if z.row.toNat < 20 then { z with row := z.row + 1#5 } else z.nextStrip

/-- The bit at placement index i: bit 7 - (i mod 8) of CW[i div 8] (R150, R63 (c)). -/
def placementBit (cw : Vector Codeword 26) (i : Nat) : Bool :=
  (cw.toList.getD (i / 8) 0#8).getLsbD (7 - i % 8)

/-- The registers and cells PLACE's loop works on. -/
structure Walk where
  zig : ZigZag
  bidx : BitVec 8
  matrix : SymbolMatrix
  deriving DecidableEq, Repr

/-- One pass of PLACE's loop: deposit a bit if the cell is a DataSlot, then step (R149). -/
def Walk.pass (cw : Vector Codeword 26) (w : Walk) : Walk :=
  let p := w.zig.pos
  if tag p.1 p.2 = .dataSlot then
    { zig := w.zig.step
      bidx := w.bidx + 1#8
      matrix := w.matrix.fill p.1 p.2 (placementBit cw w.bidx.toNat) }
  else { w with zig := w.zig.step }

/-- `while END = 0` (R149); `fuel` bounds the loop. -/
def Walk.run (cw : Vector Codeword 26) : (fuel : Nat) → Walk → Walk
  | 0, w => w
  | fuel + 1, w => if w.zig.ended then w else Walk.run cw fuel (w.pass cw)

/-- A cell as PLACE initialises it from the template (R149, R151). -/
def initCell (r c : Nat) (x : Cell) : Cell :=
  match tag r c with
  | .light => { filled := true, val := false }
  | .dark => { filled := true, val := true }
  | .formatReserved => { x with filled := false }
  | .dataSlot => { x with filled := false }

/-- PLACE's whole walk, 420 positions (R147), over the initialised matrix. -/
def placeWalk (cw : Vector Codeword 26) (m : SymbolMatrix) : Walk :=
  Walk.run cw 420 { zig := ZigZag.start, bidx := 0#8, matrix := m.mapCells initCell }

/-- The body of PLACE (R149). The layout check is an invariant check and cannot fire (R141). -/
def placeBody (s : State) : StageOutcome :=
  let nslot := tagCount .dataSlot
  if nslot ≠ 8 * Config.ncw then .error .layoutMismatch (BitVec.ofNat 32 nslot) s
  else
    let w := placeWalk s.cw s.matrix
    .done { s with matrix := w.matrix, zig := w.zig, bidx := w.bidx, phase := .placed }

/-- PLACE (R149). -/
def execPlace (s : State) : Host.Outcome State Fault Refusal :=
  .next (s.ifPhase .place fun s => (placeBody s).finish)

end Sys2Proof.Machine
end

