-- ==== Sys2Proof/Machine/Pipeline.lean ====
section
/-! DEFINITION. Pipeline control, ENCODE and CLEAR (47_pipeline_control.md). -/

namespace Sys2Proof.Machine

/-- Stages 1 and 2 (R181). -/
def encodeFront (s : State) : StageOutcome := (alnumBody s).andThen frameBody

/-- Stage 3 from the answer on, and stages 4 to 7 (R181). -/
def encodeBack (a : RsAnswer) (s : State) : StageOutcome :=
  ((((augmentBody a s).andThen formatBuildBody).andThen placeBody).andThen maskBody).andThen embedBody

/-- ENCODE (R181). Its effects are one atomic update when BUSY falls (R57), so waiting for the collaborator leaves the
registers as they are, but for STAGE = 3 and the request of the framed codewords (log 7); when the answer comes the
stages run on the unchanged input. -/
def execEncode (s : State) : Host.Outcome State Fault Refusal :=
  .next (s.ifPhase .encode fun s =>
    match encodeFront s with
    | .error e info s' => s'.raise e info
    | .done s' =>
      match s.rsPort with
      | none => { s.sendRequest s'.dataCodewords with stage := 3#3 }
      | some req => (encodeBack (s.rsAnswer req.data) s').finish)

/-- What CLEAR writes (R182): every reset-valued item of R39 except IN_LEN and IN_CHAR. CMD_LATCH is one of them
(log 10); VAL is not, it has no reset value. -/
def clearState (s : State) : State :=
  { s with
    phase := .idle
    fmtValid := false
    bitLen := 0#6
    bitStr := Vector.replicate 2 0#32
    nLatch := 0#8
    cw := Vector.replicate 26 0#8
    fmt := 0#15
    bchResult := 0#10
    matrix := s.matrix.mapCells fun _ _ x => { x with filled := false }
    zig := ZigZag.start
    bidx := 0#8
    cmdLatch := 0#32 }

/-- CLEAR (R182). -/
def execClear (s : State) : Host.Outcome State Fault Refusal :=
  .next (s.ifPhase .clear fun s => (clearState s).succeed)

end Sys2Proof.Machine
end

