-- ==== Sys2Proof/Machine/Dispatch.lean ====
section
/-! DEFINITION. One arm per instruction. -/

namespace Sys2Proof.Machine

def exec (i : Instr) (s : State) : Host.Outcome State Fault Refusal :=
  match i with
  | .alnumEncode => Sys2Proof.Machine.execAlnumEncode s
  | .frame => Sys2Proof.Machine.execFrame s
  | .ecAugment => Sys2Proof.Machine.execEcAugment s
  | .formatBuild => Sys2Proof.Machine.execFormatBuild s
  | .place => Sys2Proof.Machine.execPlace s
  | .mask => Sys2Proof.Machine.execMask s
  | .formatEmbed => Sys2Proof.Machine.execFormatEmbed s
  | .encode => Sys2Proof.Machine.execEncode s
  | .bchRem d => Sys2Proof.Machine.execBchRem d s
  | .clear => Sys2Proof.Machine.execClear s
  | .rd a => Sys2Proof.Machine.execRd a s
  | .wr a v => Sys2Proof.Machine.execWr a v s

end Sys2Proof.Machine
end

