-- ==== Sys2Proof/Machine/Step.lean ====
section
/-! DEFINITION. One step: the next input's move (20_memory.md R59). -/

namespace Sys2Proof.Machine

/-- The command in CMD_LATCH makes its move: decode, then its own rule, or ILLEGAL_COMMAND(w) (R72, R180). -/
def runCommand (s : State) : Host.Outcome State Fault Refusal :=
  match decode s.cmdLatch with
  | .ok i => exec i s
  | .error _ => .next (s.refuse .illegalCommand)

/-- The block's own move: nothing when it is idle (R183) or waits for the collaborator (R122). -/
def blockMove (s : State) : Host.Outcome State Fault Refusal :=
  if s.busy && !s.rsPending then runCommand s else .next s

/-- The collaborator's answer finishes the command that waits for it. With no request on the port there is none to
deliver (R221, R229; log 11). -/
def answerMove (s : State) : Host.Outcome State Fault Refusal :=
  if s.busy && s.rsPending then runCommand s else .next s

/-- The move of one input (R59). -/
def move : Input → State → Host.Outcome State Fault Refusal
  | .rd a, s => exec (.rd a) s
  | .wr a v, s => exec (.wr a v) s
  | .block, s => blockMove s
  | .answer, s => answerMove s
  | .reset, s => .next s.resetFrom

/-- The next input's move; with none to come, the block moves on its own (log 5). -/
def step (s : State) : Host.Outcome State Fault Refusal :=
  match s.inputs with
  | [] => blockMove s
  | input :: rest => move input { s with inputs := rest }

/-- The state whose very next step runs the command word `w`: it is in CMD_LATCH, BUSY is 1 as after the host's write
(R23), the port is empty, and the next move is the block's (log 6). -/
def State.withFetchWord (s : State) (nbits w : Nat) : State :=
  { s with
    cmdLatch := BitVec.ofNat 32 (w % 2 ^ nbits)
    busy := true
    rsPort := none
    inputs := .block :: s.inputs }

end Sys2Proof.Machine
end

