-- ==== Sys2Proof/Safety.lean ====
section
/-! DEFINITION. The terms claims are stated in: the traversal as the spec's strip table (44_matrix_placer.md R147, R148),
where each bit of the format field goes (46_format_embedder.md R172, R173), multiples of the BCH generator, the reset
values (10_state.md R39), a finished symbol (47_pipeline_control.md R183), and the invariant of the machine. -/

namespace Sys2Proof.Machine

/-! ### The traversal, by the strip table -/

/-- The ten strips: right column and direction (R147). -/
def stripTable : List (Nat × Dir) :=
  [(20, .up), (18, .down), (16, .up), (14, .down), (12, .up), (10, .down), (8, .up), (5, .down), (3, .up), (1, .down)]

/-- The 42 positions of one strip, right column before left column in every row (R144, R147). -/
def stripPositions (strip : Nat × Dir) : List (Nat × Nat) :=
  (match strip.2 with
    | .up => (List.range 21).reverse
    | .down => List.range 21).flatMap fun r => [(r, strip.1), (r, strip.1 - 1)]

/-- The 420-position sequence (R147). -/
def walkPositions : List (Nat × Nat) := stripTable.flatMap stripPositions

/-- The DataSlot visit sequence V (R148). -/
def visitOrder : List (Nat × Nat) := walkPositions.filter fun p => decide (tag p.1 p.2 = .dataSlot)

/-! ### The format field and the BCH code -/

/-- Which bit of FMT each FormatReserved cell takes (the tables of R172 and R173). -/
def formatBitAt (r c : Nat) : Option Nat :=
  if r = 8 then
    if c ≤ 5 then some (14 - c) else if c = 7 then some 8 else if c = 8 then some 7
    else if 13 ≤ c ∧ c ≤ 20 then some (20 - c) else none
  else if c = 8 then
    if r ≤ 5 then some r else if r = 7 then some 6 else if 14 ≤ r ∧ r ≤ 20 then some (r - 6) else none
  else none

/-- The product over GF(2) of a polynomial of degree below 5 and the generator g(x) (R130). -/
def generatorMultiple (q : BitVec 5) : BitVec 15 :=
  (List.range 5).foldl (fun v i => if q.getLsbD i then v ^^^ (0x537#15 <<< i) else v) 0#15

/-! ### Inputs and outputs of the pipeline -/

/-- Every character of the input string is in the alphabet (R101). -/
def State.ValidInput (s : State) : Prop :=
  ∀ i : Fin 255, i.val < s.inLen.toNat → inAlphabet s.inChar[i] = true

/-- Stream bit j of the BITSTR registers (R28). -/
def State.packedBit (s : State) (j : Nat) : Bool := (s.bitStr.toList.getD (j / 32) 0#32).getLsbD (31 - j % 32)

/-- The nine codewords of FRAMESTREAM(n, b) (R110, R63 (b)). -/
def framedCodewords (n : Nat) (b : Bits) : Vector Codeword 9 :=
  Vector.ofFn fun k => streamCodeword (frameStream n b) k.val

/-- A finished symbol is in the block (R183). -/
def State.FinishedSymbol (s : State) : Prop := s.busy = false ∧ s.phase = .embedded ∧ s.err = .none

/-- The next move is a host write while BUSY = 1 (R226 (a)). -/
def State.ViolatesNext (s : State) : Prop := s.busy = true ∧ ∃ a v rest, s.inputs = .wr a v :: rest

/-- The block's items have the values of R39. IN_CHAR and VAL are draws there, which says nothing of them. -/
structure State.HasResetValues (s : State) : Prop where
  status : s.status = 0#32
  errInfo : s.errInfo = 0#32
  inLen : s.inLen = 0#8
  bitLen : s.bitLen = 0#6
  bitStr : ∀ i : Fin 2, s.bitStr[i] = 0#32
  cw : ∀ i : Fin 26, s.cw[i] = 0#8
  fmt : s.fmt = 0#15
  bchResult : s.bchResult = 0#10
  filled : ∀ r c, (s.matrix.cell r c).filled = false
  nLatch : s.nLatch = 0#8
  zig : s.zig = { rc := 20#5, row := 20#5, dir := .up, sub := .right, ended := false }
  bidx : s.bidx = 0#8
  cmdLatch : s.cmdLatch = 0#32
  stage : s.stage = 0#3
  rsPending : s.rsPending = false

/-! ### The invariant -/

/-- What holds of the block between any two moves: what each PHASE promises of the registers and the matrix (R24),
what a waiting command has sent (R122), and when the sequencer is quiet (R36). -/
structure State.Inv (s : State) : Prop where
  /-- an idle block waits for nothing (R36, R57) -/
  quiet : s.busy = false → s.rsPort = none
  /-- STAGE is 0 unless ENCODE waits (R36) -/
  stageZero : s.rsPort = none → s.stage = 0#3
  /-- a request is EC_AUGMENT's in PHASE 2 or ENCODE's in stage 3, and holds the framed codewords (R122, R181) -/
  waiting : ∀ req, s.rsPort = some req → req.ecLen = 17 ∧
    ((decode s.cmdLatch = .ok .ecAugment ∧ s.stage = 0#3 ∧ s.phase = .framed ∧ req.data = s.dataCodewords) ∨
      (decode s.cmdLatch = .ok .encode ∧ s.stage = 3#3 ∧ s.ValidInput ∧ s.inLen.toNat ≤ 10 ∧
        req.data = framedCodewords s.inLen.toNat (alnum s.inputString)))
  /-- a command that ends without error writes ERR_INFO = 0 (R26) -/
  noInfo : s.err = .none → s.errInfo = 0#32
  /-- FMT is the constant once built, and 0 otherwise (R31, R132) -/
  format : s.fmt = if s.fmtValid then 0x19D0#15 else 0#15
  /-- packed bits past BITLEN are 0 (R28) -/
  tail : ∀ j, s.bitLen.toNat ≤ j → j < 64 → s.packedBit j = false
  /-- PHASE 1 and up: BITSTR, BITLEN and N_LATCH are one string's (R24) -/
  encoded : 1 ≤ s.phase.code.toNat → ∃ str : List Codeword, (∀ c ∈ str, inAlphabet c = true) ∧
    str.length = s.nLatch.toNat ∧ str.length ≤ 10 ∧ s.bitLen.toNat = (alnum str).length ∧ s.bitString = alnum str
  /-- PHASE 2: CW[0..8] is the framed stream (R24) -/
  framed : s.phase = .framed → s.dataCodewords = framedCodewords s.nLatch.toNat s.bitString
  /-- PHASE 3 and up: CW is the collaborator's answer (R24, R123) -/
  augmented : 3 ≤ s.phase.code.toNat →
    s.rsAnswer (framedCodewords s.nLatch.toNat s.bitString) = .ok s.cw.toList
  /-- PHASE 4 and up: Light cells (R151) -/
  light : 4 ≤ s.phase.code.toNat → ∀ r c, r < 21 → c < 21 → tag r c = .light →
    s.matrix.cell r c = { filled := true, val := false }
  /-- PHASE 4 and up: Dark cells (R151) -/
  dark : 4 ≤ s.phase.code.toNat → ∀ r c, r < 21 → c < 21 → tag r c = .dark →
    s.matrix.cell r c = { filled := true, val := true }
  /-- PHASE 4 and up: V[i] holds bit i of CW, masked from PHASE 5 on (R24, R150, R161) -/
  data : 4 ≤ s.phase.code.toNat → ∀ i r c, visitOrder[i]? = some (r, c) →
    s.matrix.cell r c =
      { filled := true, val := placementBit s.cw i ^^ (decide (s.phase ≠ .placed) && mask3 r c) }
  /-- PHASE 4 and 5: FormatReserved cells are unfilled (R151) -/
  reserved : s.phase = .placed ∨ s.phase = .masked → ∀ r c, tag r c = .formatReserved →
    (s.matrix.cell r c).filled = false
  /-- PHASE 6: the format field is built and both copies are in place (R171 to R175) -/
  embedded : s.phase = .embedded → s.fmtValid = true ∧
    ∀ r c k, formatBitAt r c = some k → r < 21 → c < 21 →
      s.matrix.cell r c = { filled := true, val := s.fmt.getLsbD k }
  /-- the zig-zag registers are at their start, or where PLACE leaves them (R39, R146) -/
  zigzag : (s.zig = ZigZag.start ∧ s.bidx = 0#8) ∨
    (s.zig = { rc := 1#5, row := 20#5, dir := .down, sub := .right, ended := true } ∧ s.bidx = 208#8)

end Sys2Proof.Machine
end

