-- ==== Sys2Proof/Certificates/Slice0/Obligations.lean ====
section
/-! DEFINITION. The statements for the provers. A conclusion `exec i s = .next t` with t written as an update of s says
all of it: the instruction completes, what it writes, and that nothing else changes. -/

open Sys2Proof Sys2Proof.Machine

/-! ### Encoding -/

/-- R71: the ten command words, each read as its instruction. -/
def Obligations.CommandWordsOfRuleSeventyOneDecode : Prop :=
  decode 0x00000001#32 = .ok .alnumEncode ∧ decode 0x00000002#32 = .ok .frame ∧
  decode 0x00000003#32 = .ok .ecAugment ∧ decode 0x00000004#32 = .ok .formatBuild ∧
  decode 0x00000005#32 = .ok .place ∧ decode 0x00000006#32 = .ok .mask ∧
  decode 0x00000007#32 = .ok .formatEmbed ∧ decode 0x00000008#32 = .ok .encode ∧
  (∀ d : BitVec 15, decode (0x00000009#32 ||| (d.setWidth 32 <<< 8)) = .ok (.bchRem d)) ∧
  decode 0x0000000A#32 = .ok .clear

/-- Decode of encode is the instruction, for every command with every operand; only the bus operations have no word
(R71, R81). -/
def Obligations.DecodeOfEncodeIsTheInstruction : Prop :=
  ∀ i : Instr, i.wellFormed = true →
    match encode i with
    | some w => decode w = .ok i
    | none => (∃ a, i = .rd a) ∨ (∃ a v, i = .wr a v)

/-- A word that decodes is the word of the instruction it decodes to: no two words are one command (R70, R71). -/
def Obligations.DecodedWordIsTheEncodedWord : Prop :=
  ∀ (w : Word) (i : Instr), decode w = .ok i → encode i = some w ∧ i.wellFormed = true

/-- R72, R75: a word of a reserved opcode, with RSV ≠ 0, or with OPND ≠ 0 and another opcode than BCH_REM's, ends as
ILLEGAL_COMMAND(w) and changes nothing but ERR, ERR_INFO and BUSY; every other word is a command, which goes on to its
phase check and its own rule. STAGE = 0 is what the invariant says of a block that waits for nothing. -/
def Obligations.ReservedWordsAndNoOthersAreIllegal : Prop :=
  ∀ s : State,
    let op := s.cmdLatch.toNat % 2 ^ 8
    let opnd := s.cmdLatch.toNat / 2 ^ 8 % 2 ^ 15
    let rsv := s.cmdLatch.toNat / 2 ^ 23
    ((op = 0x00 ∨ 0x0B ≤ op) ∨ rsv ≠ 0 ∨ (op ≠ 0x09 ∧ opnd ≠ 0) → s.stage = 0#3 →
      runCommand s = .next { s with busy := false, err := .illegalCommand, errInfo := s.cmdLatch }) ∧
    (¬((op = 0x00 ∨ 0x0B ≤ op) ∨ rsv ≠ 0 ∨ (op ≠ 0x09 ∧ opnd ≠ 0)) →
      ∃ i, decode s.cmdLatch = .ok i ∧ runCommand s = exec i s)

/-! ### The step -/

/-- The step runs the decoded command on the block's move, finishes a waiting one on the collaborator's answer, and runs
each host access; in each case on the state whose input list has moved on. That a run is such a list of moves is the
model's choice (log 5). -/
def Obligations.StepRunsTheDecodedInstruction : Prop :=
  ∀ (s : State) (rest : List Input),
    (∀ i, s.inputs = .block :: rest → s.busy = true → s.rsPort = none → decode s.cmdLatch = .ok i →
      step s = exec i { s with inputs := rest }) ∧
    (∀ i req, s.inputs = .answer :: rest → s.busy = true → s.rsPort = some req → decode s.cmdLatch = .ok i →
      step s = exec i { s with inputs := rest }) ∧
    (s.inputs = [] → s.busy = true → s.rsPort = none → step s = runCommand s) ∧
    (∀ a, s.inputs = .rd a :: rest → step s = exec (.rd a) { s with inputs := rest }) ∧
    (∀ a v, s.inputs = .wr a v :: rest → step s = exec (.wr a v) { s with inputs := rest })

/-- R180: a CMD write outside BUSY and the block's move after it run the command the word encodes, from the state with
the word in CMD_LATCH and BUSY = 1. The list of moves is the model's choice (log 5). -/
def Obligations.CommandCycleRunsTheWrittenWord : Prop :=
  ∀ (s : State) (w : Word) (i : Instr) (rest : List Input), s.busy = false → s.rsPort = none →
    s.inputs = .wr 0x000#12 w :: .block :: rest → decode w = .ok i →
    Sys2Proof.core.run 2 s = exec i { s with inputs := rest, cmdLatch := w, busy := true }

/-- The block's move does nothing while it is idle (R183) or waits (R122), and an answer with no request is not
delivered (R221). The list of moves is the model's choice (log 5, log 11). -/
def Obligations.IdleAndWaitingBlockStaysAsItIs : Prop :=
  ∀ (s : State) (rest : List Input),
    (s.inputs = .block :: rest → s.busy = false → step s = .next { s with inputs := rest }) ∧
    (∀ req, s.inputs = .block :: rest → s.rsPort = some req → step s = .next { s with inputs := rest }) ∧
    (s.inputs = .answer :: rest → s.rsPort = none → step s = .next { s with inputs := rest })

/-- R206, R226 (a): the one stop of the whole machine is a host write while BUSY = 1; every other step of every state
answers a next state. The list of moves is the model's choice (log 5). -/
def Obligations.OnlyAHostWriteWhileBusyStops : Prop :=
  ∀ s : State,
    (s.ViolatesNext → step s = .fault .hostViolation) ∧ (¬ s.ViolatesNext → ∃ t, step s = .next t)

/-- R220: a reset at any time, with a command running or a request on the port too (R221), gives every item of the block
its value of R39; the collaborator and the moves to come go on, the model's choice (log 16). -/
def Obligations.ResetAtAnyTimeGivesTheResetValues : Prop :=
  ∀ (s : State) (rest : List Input), s.inputs = .reset :: rest →
    ∃ t, step s = .next t ∧ t.HasResetValues ∧ t.inputs = rest ∧ t.rsTable = s.rsTable

/-- R39: the reset values. -/
def Obligations.ResetStateHasTheResetValues : Prop := State.reset.HasResetValues

/-! ### The host port -/

/-- R53: a host write, address by address; R55: every other address ignores it; R226: a write while BUSY is the
fault. -/
def Obligations.HostWriteFollowsTheAddressMap : Prop :=
  ∀ (s : State) (a : Addr) (v : Word),
    (s.busy = true → exec (.wr a v) s = .fault .hostViolation) ∧
    (s.busy = false →
      (a = 0x000#12 → exec (.wr a v) s = .next { s with cmdLatch := v, busy := true }) ∧
      (a = 0x003#12 → exec (.wr a v) s = .next { s with inLen := v.extractLsb' 0 8 }) ∧
      (∀ i : Fin 255, a.toNat = 0x100 + i.val →
        exec (.wr a v) s = .next { s with inChar := s.inChar.set i.val (v.extractLsb' 0 8) i.isLt }) ∧
      (a ≠ 0x000#12 → a ≠ 0x003#12 → ¬(0x100 ≤ a.toNat ∧ a.toNat ≤ 0x1FE) → exec (.wr a v) s = .next s))

/-- R52, R22 outside BUSY: the word each register but MATRIX_ROW reads as, 0 for CMD and for a reserved address (R55).
The model's own choice: the word goes to readData, and one draw is used up (log 2, log 8). -/
def Obligations.HostReadReturnsTheNamedRegister : Prop :=
  ∀ (s : State) (a : Addr) (w : Word), s.busy = false →
    ((a.toNat = 0x000 ∧ w = 0#32) ∨ (a.toNat = 0x001 ∧ w = s.status) ∨ (a.toNat = 0x002 ∧ w = s.errInfo) ∨
      (a.toNat = 0x003 ∧ w.toNat = s.inLen.toNat) ∨ (a.toNat = 0x004 ∧ w.toNat = s.bitLen.toNat) ∨
      (a.toNat = 0x005 ∧ w.toNat = s.fmt.toNat) ∨ (a.toNat = 0x006 ∧ w.toNat = s.bchResult.toNat) ∨
      (∃ k : Fin 2, a.toNat = 0x008 + k.val ∧ w = s.bitStr[k]) ∨
      (∃ k : Fin 26, a.toNat = 0x020 + k.val ∧ w.toNat = s.cw[k].toNat) ∨
      (∃ k : Fin 255, a.toNat = 0x100 + k.val ∧ w.toNat = s.inChar[k].toNat) ∨
      ((a.toNat = 0x007 ∨ (0x00A ≤ a.toNat ∧ a.toNat ≤ 0x01F) ∨ (0x03A ≤ a.toNat ∧ a.toNat ≤ 0x03F) ∨
        (0x055 ≤ a.toNat ∧ a.toNat ≤ 0x0FF) ∨ 0x1FF ≤ a.toNat) ∧ w = 0#32)) →
    exec (.rd a) s = .next { s with readData := w, draws := s.draws + 1 }

/-- R30: MATRIX_ROW[r], bit c is VAL(r,c) where the cell is filled and a draw otherwise, bits [31:21] are 0. That
the word goes to readData and the draw is number `draws` is the model's choice (log 2, log 8). -/
def Obligations.MatrixRowReadsFilledCells : Prop :=
  ∀ (s : State) (r : Nat) (a : Addr), s.busy = false → r < 21 → a.toNat = 0x040 + r →
    ∃ w, exec (.rd a) s = .next { s with readData := w, draws := s.draws + 1 } ∧
      (∀ c, c < 21 → (s.matrix.cell r c).filled = true → w.getLsbD c = (s.matrix.cell r c).val) ∧
      (∀ c, c < 21 → (s.matrix.cell r c).filled = false → w.getLsbD c = (Config.draw s.draws).getLsbD c) ∧
      (∀ c, 21 ≤ c → w.getLsbD c = false)

/-- R58: while BUSY = 1 a read of STATUS has bit 0 = 1 and a draw in bits [31:1], and a read of any other register is a
draw; of CMD and a reserved address too, by the model's reading (log 9; log 2, log 8). -/
def Obligations.ReadsWhileBusyAreDrawsButTheBusyBit : Prop :=
  ∀ (s : State) (a : Addr), s.busy = true →
    ∃ w, exec (.rd a) s = .next { s with readData := w, draws := s.draws + 1 } ∧
      (a = 0x001#12 → w.getLsbD 0 = true ∧ ∀ i, 1 ≤ i → w.getLsbD i = (Config.draw s.draws).getLsbD i) ∧
      (a ≠ 0x001#12 → w = Config.draw s.draws)

/-- R24: the fields of STATUS. -/
def Obligations.StatusFieldsStandWhereRuleTwentyFourPutsThem : Prop :=
  ∀ s : State,
    s.status.getLsbD 0 = s.busy ∧
    s.status.toNat / 2 % 8 =
      (match s.err with
        | .none => 0 | .invalidCharacter => 1 | .capacityExceeded => 2 | .layoutMismatch => 3
        | .rsFailure => 4 | .illegalCommand => 5 | .sequenceError => 6) ∧
    s.status.toNat / 16 % 8 =
      (match s.phase with
        | .idle => 0 | .encoded => 1 | .framed => 2 | .augmented => 3 | .placed => 4 | .masked => 5 | .embedded => 6) ∧
    s.status.getLsbD 7 = s.fmtValid ∧ s.status.toNat < 256

/-! ### Phases and errors -/

/-- R73, R202 (b): a command whose phase precondition fails raises SEQUENCE_ERROR(w), which changes nothing but ERR,
ERR_INFO and BUSY; a running command whose precondition holds, in any PHASE for the five with none, never ends with it.
STAGE = 0 is what the invariant says of a block that waits for nothing. -/
def Obligations.CommandOutOfPhaseIsRefused : Prop :=
  ∀ (s : State) (i : Instr),
    let fails := (i = .frame ∧ s.phase ≠ .encoded) ∨ (i = .ecAugment ∧ s.phase ≠ .framed) ∨
      (i = .place ∧ s.phase ≠ .augmented) ∨ (i = .mask ∧ s.phase ≠ .placed ∧ s.phase ≠ .masked) ∨
      (i = .formatEmbed ∧ ¬(s.phase = .masked ∧ s.fmtValid = true))
    (fails → s.stage = 0#3 →
      exec i s = .next { s with busy := false, err := .sequenceError, errInfo := s.cmdLatch }) ∧
    (¬ fails → s.busy = true → ∀ t, exec i s = .next t → t.busy = false → t.err ≠ .sequenceError)

/-- R25: the only changes of PHASE in the whole machine. -/
def Obligations.OnlyListedCommandsChangePhase : Prop :=
  ∀ s t : State, step s = .next t → t.phase ≠ s.phase →
    (∃ rest, s.inputs = .reset :: rest ∧ t.phase = .idle) ∨
    (∃ i, decode s.cmdLatch = .ok i ∧ s.busy = true ∧ t.busy = false ∧
      ((t.err = .none ∧ i = .alnumEncode ∧ t.phase = .encoded) ∨
        (t.err = .none ∧ i = .frame ∧ s.phase = .encoded ∧ t.phase = .framed) ∨
        (t.err = .none ∧ i = .ecAugment ∧ s.phase = .framed ∧ t.phase = .augmented) ∨
        (t.err = .none ∧ i = .place ∧ s.phase = .augmented ∧ t.phase = .placed) ∨
        (t.err = .none ∧ i = .mask ∧ s.phase = .placed ∧ t.phase = .masked) ∨
        (t.err = .none ∧ i = .mask ∧ s.phase = .masked ∧ t.phase = .placed) ∨
        (t.err = .none ∧ i = .formatEmbed ∧ s.phase = .masked ∧ t.phase = .embedded) ∨
        (t.err = .none ∧ i = .encode ∧ t.phase = .embedded) ∨
        (t.err = .none ∧ i = .clear ∧ t.phase = .idle) ∨
        (t.err.isStageError = true ∧ t.phase = .idle)))

/-- Every command but the two that wait for the collaborator ends, from any state (R230), with BUSY = 0 (R57), STAGE = 0,
and ERR_INFO = 0 where ERR is 0 (R205). That it ends in one move is the model's choice (log 13): R231 says that a hang inside
such a command is one the model misses. -/
def Obligations.CommandsThatDoNotWaitEndInOneMove : Prop :=
  ∀ (s : State) (i : Instr), i ≠ .ecAugment → i ≠ .encode → (∀ a, i ≠ .rd a) → (∀ a v, i ≠ .wr a v) →
    ∃ t, exec i s = .next t ∧ t.busy = false ∧ t.stage = 0#3 ∧ t.rsTable = s.rsTable ∧ t.inputs = s.inputs ∧
      (t.err = .none → t.errInfo = 0#32)

/-- R27: only the host and a reset write IN_LEN and IN_CHAR; no command does. -/
def Obligations.OnlyTheHostWritesTheInputBuffer : Prop :=
  ∀ s t : State, step s = .next t → (∀ a v rest, s.inputs ≠ .wr a v :: rest) → (∀ rest, s.inputs ≠ .reset :: rest) →
    t.inLen = s.inLen ∧ t.inChar = s.inChar

/-- R122, R229: the collaborator is one function for the whole run, whatever happens. Its form is the model's (log 3). -/
def Obligations.CollaboratorIsTheSameFunctionForEver : Prop :=
  ∀ (s t : State) (k : Nat), Sys2Proof.core.run k s = .next t → ∀ data, t.rsAnswer data = s.rsAnswer data

/-- R122: with no answer (and no reset), a block that waits stays BUSY with its request, however long the host polls. The
list of moves is the model's choice (log 5). -/
def Obligations.WithoutAnAnswerTheBlockStaysBusy : Prop :=
  ∀ (k : Nat) (s : State) (req : RsRequest), s.busy = true → s.rsPort = some req →
    (∀ x ∈ s.inputs, x = .block ∨ ∃ a, x = .rd a) →
    ∃ t, Sys2Proof.core.run k s = .next t ∧ t.busy = true ∧ t.rsPort = some req

/-! ### ALNUM_ENCODE -/

/-- R76: TABLE is the position in the listing of the alphabet, and nothing else is in the alphabet (R77). -/
def Obligations.AlphanumericTableIsThePosition : Prop :=
  (∀ k : Fin 10, alnumValue (BitVec.ofNat 8 (0x30 + k.val)) = some k.val) ∧
  (∀ k : Fin 26, alnumValue (BitVec.ofNat 8 (0x41 + k.val)) = some (10 + k.val)) ∧
  alnumValue 0x20#8 = some 36 ∧ alnumValue 0x24#8 = some 37 ∧ alnumValue 0x25#8 = some 38 ∧
  alnumValue 0x2A#8 = some 39 ∧ alnumValue 0x2B#8 = some 40 ∧ alnumValue 0x2D#8 = some 41 ∧
  alnumValue 0x2E#8 = some 42 ∧ alnumValue 0x2F#8 = some 43 ∧ alnumValue 0x3A#8 = some 44 ∧
  (∀ c : Codeword, ¬(0x30 ≤ c.toNat ∧ c.toNat ≤ 0x39) → ¬(0x41 ≤ c.toNat ∧ c.toNat ≤ 0x5A) →
    c.toNat ∉ [0x20, 0x24, 0x25, 0x2A, 0x2B, 0x2D, 0x2E, 0x2F, 0x3A] → alnumValue c = none)

/-- R100: ALNUM takes pairs from the left, 11 bits each, most significant first, and 6 bits for a trailing character. -/
def Obligations.AlnumEncodesPairsFromTheLeft : Prop :=
  alnum [] = [] ∧
  (∀ (c : Codeword) (v : Nat), alnumValue c = some v →
    alnum [c] = [v.testBit 5, v.testBit 4, v.testBit 3, v.testBit 2, v.testBit 1, v.testBit 0]) ∧
  (∀ (c d : Codeword) (v w : Nat) (rest : List Codeword), alnumValue c = some v → alnumValue d = some w →
    ∃ b : Bits, b.length = 11 ∧ (∀ i, i < 11 → b[i]? = some ((v * 45 + w).testBit (10 - i))) ∧
      alnum (c :: d :: rest) = b ++ alnum rest)

/-- R103: the length of ALNUM(s). -/
def Obligations.AlnumLengthIsElevenPerPair : Prop :=
  ∀ str : List Codeword, (∀ c ∈ str, inAlphabet c = true) →
    (alnum str).length = 11 * (str.length / 2) + 6 * (str.length % 2)

/-- R104: the encoding is positional: two strings of one length with one encoding are one string. -/
def Obligations.AlnumDeterminesTheString : Prop :=
  ∀ str str' : List Codeword, (∀ c ∈ str, inAlphabet c = true) → (∀ c ∈ str', inAlphabet c = true) →
    str.length = str'.length → alnum str = alnum str' → str = str'

/-- R101: ALNUM_ENCODE from every state: success, INVALID_CHARACTER at the smallest bad index, CAPACITY_EXCEEDED when
every character is valid. -/
def Obligations.AlnumEncodeFollowsRuleOneHundredOne : Prop :=
  ∀ s : State,
    (s.ValidInput → s.inLen.toNat ≤ 10 →
      ∃ (p : Vector Word 2) (l : BitVec 6),
        exec .alnumEncode s = .next { s with
          bitStr := p, bitLen := l, nLatch := s.inLen, phase := .encoded,
          err := .none, errInfo := 0#32, busy := false, stage := 0#3 } ∧
        l.toNat = (alnum s.inputString).length ∧
        (∀ (k : Fin 2) (j : Nat), j < 32 →
          p[k].getLsbD (31 - j) = ((alnum s.inputString)[32 * k.val + j]?).getD false)) ∧
    (∀ i : Fin 255, i.val < s.inLen.toNat → inAlphabet s.inChar[i] = false →
      (∀ j : Fin 255, j.val < i.val → inAlphabet s.inChar[j] = true) →
      exec .alnumEncode s = .next { s with
        phase := .idle, err := .invalidCharacter, errInfo := BitVec.ofNat 32 i.val, rsPort := none,
        busy := false, stage := 0#3 }) ∧
    (s.ValidInput → 10 < s.inLen.toNat →
      exec .alnumEncode s = .next { s with
        phase := .idle, err := .capacityExceeded, errInfo := BitVec.ofNat 32 s.inLen.toNat, rsPort := none,
        busy := false, stage := 0#3 })

/-- R101, "Slots at index ≥ n are never read": changing them changes nothing of what ALNUM_ENCODE and ENCODE do. -/
def Obligations.SlotsPastTheLengthAreNeverRead : Prop :=
  ∀ (s : State) (v : Vector Codeword 255), (∀ i : Fin 255, i.val < s.inLen.toNat → v[i] = s.inChar[i]) →
    (∃ t, exec .alnumEncode s = .next t ∧ exec .alnumEncode { s with inChar := v } = .next { t with inChar := v }) ∧
    (∃ t, exec .encode s = .next t ∧ exec .encode { s with inChar := v } = .next { t with inChar := v })

/-! ### FRAME -/

/-- R110, R112: FRAMESTREAM for every count and every stream of the length ALNUM gives it: the fields in order, the zero
bits to a byte boundary, then the pad codewords 11101100 and 00010001 in turn, 72 bits in all. -/
def Obligations.FrameStreamIsPaddedToSeventyTwoBits : Prop :=
  ∀ (n : Nat) (b : Bits), n ≤ 10 → b.length = 11 * (n / 2) + 6 * (n % 2) →
    ∃ count zeros pads : Bits,
      frameStream n b = [false, false, true, false] ++ count ++ b ++ [false, false, false, false] ++ zeros ++ pads ∧
      count.length = 9 ∧ (∀ i, i < 9 → count[i]? = some (n.testBit (8 - i))) ∧
      zeros = List.replicate ((8 - (17 + b.length) % 8) % 8) false ∧
      pads = (List.range (9 - (17 + b.length + zeros.length) / 8)).flatMap
        (fun k => if k % 2 = 0 then [true, true, true, false, true, true, false, false]
          else [false, false, false, true, false, false, false, true]) ∧
      (frameStream n b).length = 72

/-- R111: FRAME in PHASE 1, from N_LATCH and the first BITLEN bits of BITSTR; CW[9..25] keep their values. The capacity
check is the source's. -/
def Obligations.FrameWritesTheNineDataCodewords : Prop :=
  ∀ s : State,
    (s.phase = .encoded → s.nLatch.toNat ≤ 10 →
      ∃ cs : Vector Codeword 26,
        exec .frame s = .next { s with
          cw := cs, phase := .framed, err := .none, errInfo := 0#32, busy := false, stage := 0#3 } ∧
        (∀ (k : Fin 26) (j : Nat), k.val < 9 → j < 8 →
          cs[k].getLsbD (7 - j) = ((frameStream s.nLatch.toNat s.bitString)[8 * k.val + j]?).getD false) ∧
        (∀ k : Fin 26, 9 ≤ k.val → cs[k] = s.cw[k])) ∧
    (s.phase = .encoded → 10 < s.nLatch.toNat →
      exec .frame s = .next { s with
        phase := .idle, err := .capacityExceeded, errInfo := BitVec.ofNat 32 s.nLatch.toNat, rsPort := none,
        busy := false, stage := 0#3 }) ∧
    (s.phase ≠ .encoded → exec .frame s = .next { s with
      err := .sequenceError, errInfo := s.cmdLatch, busy := false, stage := 0#3 })

/-- R34: between ALNUM_ENCODE and FRAME the host may write what it likes outside CMD; FRAME still frames the count and
the bits that were encoded. -/
def Obligations.FrameUsesTheLatchedCountAndBits : Prop :=
  ∀ (s : State) (a : Addr) (v : Word), s.ValidInput → s.inLen.toNat ≤ 10 → a ≠ 0x000#12 →
    ∃ t u w, exec .alnumEncode s = .next t ∧ exec (.wr a v) t = .next u ∧ exec .frame u = .next w ∧
      w.phase = .framed ∧ w.err = .none ∧
      ∀ (k : Fin 26) (j : Nat), k.val < 9 → j < 8 →
        w.cw[k].getLsbD (7 - j) = ((frameStream s.inLen.toNat (alnum s.inputString))[8 * k.val + j]?).getD false

/-! ### EC_AUGMENT -/

/-- R123, R126, with R122's two events: with no request on the port, EC_AUGMENT sends CW[0] to CW[8] in order with
ecLen = 17 and waits with BUSY as it is; from the answer RS(CW[0..8]) on, 26 codewords are stored as returned, another
length is LAYOUT_MISMATCH(8·len), a failure is RS_FAILURE, and on an error CW is unchanged. -/
def Obligations.EcAugmentSendsAndTakesTheAnswer : Prop :=
  ∀ s : State,
    (s.phase = .framed → s.rsPort = none →
      ∃ req : RsRequest, exec .ecAugment s = .next { s with rsPort := some req } ∧ req.ecLen = 17 ∧
        ∀ (k : Nat) (h : k < 9), req.data[k] = s.cw[k]) ∧
    (∀ (req : RsRequest) (seq : List Codeword), s.phase = .framed → s.rsPort = some req →
      (∀ (k : Nat) (h : k < 9), req.data[k] = s.cw[k]) → s.rsAnswer req.data = .ok seq → seq.length = 26 →
      ∃ cs : Vector Codeword 26, cs.toList = seq ∧
        exec .ecAugment s = .next { s with
          cw := cs, phase := .augmented, err := .none, errInfo := 0#32, rsPort := none,
          busy := false, stage := 0#3 }) ∧
    (∀ (req : RsRequest) (seq : List Codeword), s.phase = .framed → s.rsPort = some req →
      (∀ (k : Nat) (h : k < 9), req.data[k] = s.cw[k]) → s.rsAnswer req.data = .ok seq → seq.length ≠ 26 →
      exec .ecAugment s = .next { s with
        phase := .idle, err := .layoutMismatch, errInfo := BitVec.ofNat 32 (8 * seq.length), rsPort := none,
        busy := false, stage := 0#3 }) ∧
    (∀ (req : RsRequest) (e : Nat), s.phase = .framed → s.rsPort = some req →
      (∀ (k : Nat) (h : k < 9), req.data[k] = s.cw[k]) → s.rsAnswer req.data = .fail e →
      exec .ecAugment s = .next { s with
        phase := .idle, err := .rsFailure, errInfo := Config.rsErrInfo e, rsPort := none,
        busy := false, stage := 0#3 }) ∧
    (s.phase ≠ .framed → exec .ecAugment s = .next { s with
      err := .sequenceError, errInfo := s.cmdLatch, busy := false, stage := 0#3 })

/-! ### FORMAT_BUILD and BCH_REM -/

/-- R131, R132: FORMAT_BUILD from every state: FMT is 0x19D0 and FMT_VALID is 1, PHASE and the matrix are unchanged. -/
def Obligations.FormatBuildWritesTheConstantField : Prop :=
  ∀ s : State, exec .formatBuild s = .next { s with
    fmt := 0b001100111010000#15, fmtValid := true, err := .none, errInfo := 0#32, busy := false, stage := 0#3 }

/-- R133, R130: BCH_REM d from every state: BCH_RESULT is the remainder of d, that is the r of degree below 10 with
d = q·g + r over GF(2) for some q. -/
def Obligations.BchRemWritesThePolynomialRemainder : Prop :=
  ∀ (s : State) (d : BitVec 15), ∃ (q : BitVec 5) (r : BitVec 10),
    d = generatorMultiple q ^^^ r.setWidth 15 ∧
    exec (.bchRem d) s = .next { s with
      bchResult := r, err := .none, errInfo := 0#32, busy := false, stage := 0#3 }

/-- Payload ‖ parity has remainder 0 for every payload (R134), and a word of remainder 0 is its own payload ‖ parity: the
second half no rule states; it is derived from R130. -/
def Obligations.BchCodewordsAreExactlyPayloadAndParity : Prop :=
  (∀ p : BitVec 5, bchrem (p ++ bchrem (p ++ 0#10)) = 0#10) ∧
  (∀ d : BitVec 15, bchrem d = 0#10 → ∃ p : BitVec 5, d = p ++ bchrem (p ++ 0#10))

/-! ### PLACE -/

/-- R141: the template counts; column 6 holds no DataSlot. -/
def Obligations.TemplateCountsAreThoseOfRuleOneHundredFortyOne : Prop :=
  tagCount .light = 97 ∧ tagCount .dark = 106 ∧ tagCount .formatReserved = 30 ∧ tagCount .dataSlot = 208 ∧
    ∀ r, r < 21 → tag r 6 ≠ .dataSlot

/-- R147, R146: from the start state the zig-zag machine walks the 420 positions of the strip table in their order, every
cell outside column 6 once, and stops on the step after the last; and the DataSlots of each strip. -/
def Obligations.ZigZagWalksTheStripTable : Prop :=
  (List.range 420).map (fun k => (ZigZag.step^[k] ZigZag.start).pos) = walkPositions ∧
    (∀ k, k < 420 → (ZigZag.step^[k] ZigZag.start).ended = false) ∧ (ZigZag.step^[420] ZigZag.start).ended = true ∧
    walkPositions.length = 420 ∧ walkPositions.Nodup ∧ (∀ r c, r < 21 → c < 21 → ((r, c) ∈ walkPositions ↔ c ≠ 6)) ∧
    stripTable.map (fun strip => (stripPositions strip).countP fun p => decide (tag p.1 p.2 = .dataSlot)) =
      [24, 24, 24, 24, 40, 40, 8, 8, 8, 8]

/-- R145: one step, from every state of the registers that lies in the matrix: right column before left; then a row
further; at the boundary row the next strip, with column 6 skipped, or the end. -/
def Obligations.ZigZagStepFollowsRuleOneHundredFortyFive : Prop :=
  ∀ z : ZigZag, z.ended = false → 1 ≤ z.rc.toNat → z.rc.toNat ≤ 20 → z.row.toNat ≤ 20 →
    (z.sub = .right → z.step = { z with sub := .left }) ∧
    (z.sub = .left → z.dir = .up → 0 < z.row.toNat →
      ∃ row, z.step = { z with sub := .right, row := row } ∧ row.toNat = z.row.toNat - 1) ∧
    (z.sub = .left → z.dir = .down → z.row.toNat < 20 →
      ∃ row, z.step = { z with sub := .right, row := row } ∧ row.toNat = z.row.toNat + 1) ∧
    (z.sub = .left → (z.dir = .up ∧ z.row.toNat = 0) ∨ (z.dir = .down ∧ z.row.toNat = 20) →
      (z.rc.toNat = 1 → z.step = { z with sub := .right, ended := true }) ∧
      (2 ≤ z.rc.toNat → ∃ rc dir, z.step = { z with sub := .right, rc := rc, dir := dir } ∧ dir ≠ z.dir ∧
        rc.toNat = if z.rc.toNat = 8 then 5 else z.rc.toNat - 2))

/-- R148: V has 208 entries, each DataSlot of the matrix exactly once, from (20,20), (20,19), (19,20) to (12,0). -/
def Obligations.VisitOrderHoldsEveryDataSlotOnce : Prop :=
  visitOrder.length = 208 ∧ visitOrder.Nodup ∧
    (∀ r c, r < 21 → c < 21 → ((r, c) ∈ visitOrder ↔ tag r c = .dataSlot)) ∧
    visitOrder.take 3 = [(20, 20), (20, 19), (19, 20)] ∧ visitOrder[207]? = some (12, 0)

/-- R149, R150, R151: PLACE in PHASE 3: codeword k fills V[8k] to V[8k+7], its bit 7 at V[8k]; Light and Dark cells take
their values; FormatReserved cells are unfilled; the zig-zag machine has stopped with BIDX = 208. -/
def Obligations.PlaceDepositsEveryBitInVisitOrder : Prop :=
  ∀ s : State,
    (s.phase ≠ .augmented → exec .place s = .next { s with
      err := .sequenceError, errInfo := s.cmdLatch, busy := false, stage := 0#3 }) ∧
    (s.phase = .augmented → ∃ (m : SymbolMatrix) (z : ZigZag),
      exec .place s = .next { s with
        matrix := m, zig := z, bidx := 208#8, phase := .placed,
        err := .none, errInfo := 0#32, busy := false, stage := 0#3 } ∧
      z.ended = true ∧
      (∀ (k : Fin 26) (j r c : Nat), j < 8 → visitOrder[8 * k.val + j]? = some (r, c) →
        m.cell r c = { filled := true, val := s.cw[k].getLsbD (7 - j) }) ∧
      (∀ r c, r < 21 → c < 21 → tag r c = .light → m.cell r c = { filled := true, val := false }) ∧
      (∀ r c, r < 21 → c < 21 → tag r c = .dark → m.cell r c = { filled := true, val := true }) ∧
      (∀ r c, r < 21 → c < 21 → tag r c = .formatReserved → (m.cell r c).filled = false))

/-! ### MASK -/

/-- R161, R160: MASK in PHASE 4 or 5 toggles VAL of the DataSlots with (r + c) mod 3 = 0, leaves every other cell and
every FILLED bit, and toggles PHASE. -/
def Obligations.MaskTogglesExactlyTheFlipSet : Prop :=
  ∀ s : State,
    (s.phase ≠ .placed → s.phase ≠ .masked → exec .mask s = .next { s with
      err := .sequenceError, errInfo := s.cmdLatch, busy := false, stage := 0#3 }) ∧
    (s.phase = .placed ∨ s.phase = .masked → ∃ m : SymbolMatrix,
      exec .mask s = .next { s with
        matrix := m, phase := if s.phase = .placed then .masked else .placed,
        err := .none, errInfo := 0#32, busy := false, stage := 0#3 } ∧
      ∀ r c, r < 21 → c < 21 →
        m.cell r c =
          if tag r c = .dataSlot ∧ (r + c) % 3 = 0 then
            { filled := (s.matrix.cell r c).filled, val := !(s.matrix.cell r c).val }
          else s.matrix.cell r c)

/-- R162: two MASKs in a row leave the matrix and PHASE as they were, and every other register; a single one changes
every cell of FLIP. -/
def Obligations.MaskTwiceRestoresTheMatrix : Prop :=
  ∀ s : State, s.phase = .placed ∨ s.phase = .masked →
    ∃ t, exec .mask s = .next t ∧
      exec .mask t = .next { s with err := .none, errInfo := 0#32, busy := false, stage := 0#3 } ∧
      ∀ r c, r < 21 → c < 21 → tag r c = .dataSlot → (r + c) % 3 = 0 → t.matrix.cell r c ≠ s.matrix.cell r c

/-! ### FORMAT_EMBED -/

/-- R171, R172, R173: FORMAT_EMBED in PHASE 5 with FMT_VALID = 1: both copies, cell by cell, for every value of FMT; no
other cell changes. -/
def Obligations.FormatEmbedWritesBothCopies : Prop :=
  ∀ s : State,
    (¬(s.phase = .masked ∧ s.fmtValid = true) → exec .formatEmbed s = .next { s with
      err := .sequenceError, errInfo := s.cmdLatch, busy := false, stage := 0#3 }) ∧
    (s.phase = .masked → s.fmtValid = true → ∃ m : SymbolMatrix,
      exec .formatEmbed s = .next { s with
        matrix := m, phase := .embedded, err := .none, errInfo := 0#32, busy := false, stage := 0#3 } ∧
      (∀ c, c < 6 → m.cell 8 c = { filled := true, val := s.fmt.getLsbD (14 - c) }) ∧
      m.cell 8 7 = { filled := true, val := s.fmt.getLsbD 8 } ∧
      m.cell 8 8 = { filled := true, val := s.fmt.getLsbD 7 } ∧
      (∀ i, i < 8 → m.cell 8 (13 + i) = { filled := true, val := s.fmt.getLsbD (7 - i) }) ∧
      (∀ j, j < 6 → m.cell j 8 = { filled := true, val := s.fmt.getLsbD j }) ∧
      m.cell 7 8 = { filled := true, val := s.fmt.getLsbD 6 } ∧
      (∀ i, i < 7 → m.cell (14 + i) 8 = { filled := true, val := s.fmt.getLsbD (8 + i) }) ∧
      (∀ r c, r < 21 → c < 21 → tag r c ≠ .formatReserved → m.cell r c = s.matrix.cell r c))

/-! ### ENCODE and CLEAR -/

/-- R181, R122, R57: with a valid input that fits, ENCODE's first move sends the framed codewords and waits in stage 3;
no register changes before the completion update (the model's reading of R57, log 7). -/
def Obligations.EncodeSendsTheFramedCodewords : Prop :=
  ∀ s : State, s.ValidInput → s.inLen.toNat ≤ 10 → s.rsPort = none →
    ∃ req : RsRequest,
      exec .encode s = .next { s with rsPort := some req, stage := 3#3 } ∧ req.ecLen = 17 ∧
      ∀ (k : Fin 9) (j : Nat), j < 8 →
        req.data[k].getLsbD (7 - j) =
          ((frameStream s.inLen.toNat (alnum s.inputString))[8 * k.val + j]?).getD false

/-- R181: when the collaborator answers 26 codewords, ENCODE ends with the finished symbol of the input: data bits in
visit order, masked once, function cells, both format copies; the input, BCH_RESULT and everything else are unchanged. The two
moves are the model's reading (log 7). -/
def Obligations.EncodeEndsWithTheFinishedSymbol : Prop :=
  ∀ (s : State) (req : RsRequest) (seq : List Codeword), s.ValidInput → s.inLen.toNat ≤ 10 →
    s.rsPort = some req → req.data = framedCodewords s.inLen.toNat (alnum s.inputString) →
    s.rsAnswer req.data = .ok seq → seq.length = 26 →
    ∃ (p : Vector Word 2) (l : BitVec 6) (cs : Vector Codeword 26) (m : SymbolMatrix) (z : ZigZag),
      exec .encode s = .next { s with
        bitStr := p, bitLen := l, nLatch := s.inLen, cw := cs, fmt := 0x19D0#15, fmtValid := true,
        matrix := m, zig := z, bidx := 208#8, phase := .embedded, rsPort := none,
        err := .none, errInfo := 0#32, busy := false, stage := 0#3 } ∧
      cs.toList = seq ∧ l.toNat = (alnum s.inputString).length ∧ z.ended = true ∧
      (∀ (k : Fin 2) (j : Nat), j < 32 →
        p[k].getLsbD (31 - j) = ((alnum s.inputString)[32 * k.val + j]?).getD false) ∧
      (∀ (k : Fin 26) (j r c' : Nat), j < 8 → visitOrder[8 * k.val + j]? = some (r, c') →
        m.cell r c' = { filled := true, val := cs[k].getLsbD (7 - j) ^^ decide ((r + c') % 3 = 0) }) ∧
      (∀ r c', r < 21 → c' < 21 → tag r c' = .light → m.cell r c' = { filled := true, val := false }) ∧
      (∀ r c', r < 21 → c' < 21 → tag r c' = .dark → m.cell r c' = { filled := true, val := true }) ∧
      (∀ r c' k, r < 21 → c' < 21 → formatBitAt r c' = some k →
        m.cell r c' = { filled := true, val := (0x19D0#15).getLsbD k })

/-- R181, R202 (a): ENCODE's errors: the first one is reported, PHASE is 0, the outputs of the stages before it are kept
and nothing else changes. The two moves are the model's reading (log 7). -/
def Obligations.EncodeStopsAtTheFirstError : Prop :=
  ∀ s : State,
    (∀ i : Fin 255, i.val < s.inLen.toNat → inAlphabet s.inChar[i] = false →
      (∀ j : Fin 255, j.val < i.val → inAlphabet s.inChar[j] = true) →
      exec .encode s = .next { s with
        phase := .idle, err := .invalidCharacter, errInfo := BitVec.ofNat 32 i.val, rsPort := none,
        busy := false, stage := 0#3 }) ∧
    (s.ValidInput → 10 < s.inLen.toNat →
      exec .encode s = .next { s with
        phase := .idle, err := .capacityExceeded, errInfo := BitVec.ofNat 32 s.inLen.toNat, rsPort := none,
        busy := false, stage := 0#3 }) ∧
    (∀ req : RsRequest, s.ValidInput → s.inLen.toNat ≤ 10 → s.rsPort = some req →
      ∃ t w, exec .alnumEncode s = .next t ∧ exec .frame t = .next w ∧
        (∀ e, s.rsAnswer req.data = .fail e →
          exec .encode s = .next { w with
            phase := .idle, err := .rsFailure, errInfo := Config.rsErrInfo e, rsPort := none }) ∧
        (∀ seq, s.rsAnswer req.data = .ok seq → seq.length ≠ 26 →
          exec .encode s = .next { w with
            phase := .idle, err := .layoutMismatch, errInfo := BitVec.ofNat 32 (8 * seq.length), rsPort := none }))

/-- R181: the seven stage commands one after another, and ENCODE, end in one and the same state, whenever the input fits
and the collaborator answers 26 codewords. The two moves of a wait are the model's reading (log 7). -/
def Obligations.EncodeIsTheSevenStagesInOrder : Prop :=
  ∀ (s : State) (seq : List Codeword), s.ValidInput → s.inLen.toNat ≤ 10 → s.rsPort = none →
    s.rsAnswer (framedCodewords s.inLen.toNat (alnum s.inputString)) = .ok seq → seq.length = 26 →
    ∃ s1 s2 s3 s4 s5 s6 s7 u t,
      exec .alnumEncode s = .next s1 ∧ exec .frame s1 = .next s2 ∧
      exec .ecAugment s2 = .next s3 ∧ exec .ecAugment s3 = .next s4 ∧
      exec .formatBuild s4 = .next s5 ∧ exec .place s5 = .next s6 ∧ exec .mask s6 = .next s7 ∧
      exec .formatEmbed s7 = .next t ∧
      exec .encode s = .next u ∧ exec .encode u = .next t

/-- CLEAR from every state: every reset-valued item is back at its reset value but IN_LEN and IN_CHAR, which are kept,
and every cell is unfilled with its VAL as it was. That CMD_LATCH is among the items cleared is the model's reading
(log 10). -/
def Obligations.ClearRestoresAllButTheInput : Prop :=
  ∀ s : State, ∃ m : SymbolMatrix,
    exec .clear s = .next { s with
      busy := false, err := .none, phase := .idle, fmtValid := false, errInfo := 0#32,
      bitLen := 0#6, bitStr := #v[0#32, 0#32], cw := Vector.replicate 26 0#8, matrix := m, fmt := 0#15,
      bchResult := 0#10, nLatch := 0#8,
      zig := { rc := 20#5, row := 20#5, dir := .up, sub := .right, ended := false }, bidx := 0#8,
      cmdLatch := 0#32, stage := 0#3 } ∧
    ∀ r c, r < 21 → c < 21 → m.cell r c = { filled := false, val := (s.matrix.cell r c).val }

/-! ### The invariant -/

/-- The state after reset meets the invariant. -/
def Obligations.ResetStateMeetsTheInvariant : Prop := State.reset.Inv

/-- Every step keeps the invariant, whichever agent moves: what PHASE promises of BITSTR, CW, FMT and the matrix (R24),
what the port holds (R122), what is fixed (R28, R31, R151). -/
def Obligations.EveryStepKeepsTheInvariant : Prop :=
  ∀ s t : State, s.Inv → step s = .next t → t.Inv

/-- R176: in PHASE 6 every cell is filled, and outside BUSY each MATRIX_ROW reads back its row whole, with no draw. The
read's word goes to readData (log 8). -/
def Obligations.FinishedSymbolIsReadBackWhole : Prop :=
  ∀ s : State, s.Inv → s.phase = .embedded →
    (∀ r c, r < 21 → c < 21 → (s.matrix.cell r c).filled = true) ∧
    (s.busy = false → ∀ (r : Nat) (a : Addr), r < 21 → a.toNat = 0x040 + r →
      ∃ w, exec (.rd a) s = .next { s with readData := w, draws := s.draws + 1 } ∧
        (∀ c, c < 21 → w.getLsbD c = (s.matrix.cell r c).val) ∧ ∀ c, 21 ≤ c → w.getLsbD c = false)

/-- R175: in PHASE 6 both copies decode to the format field: h = v = s. -/
def Obligations.BothFormatCopiesDecodeToTheField : Prop :=
  ∀ s : State, s.Inv → s.phase = .embedded →
    let val := fun r c => (s.matrix.cell r c).val
    let field := (List.range 15).map fun k => s.fmt.getLsbD (14 - k)
    ((List.range 6).map fun c => val 8 c) ++ [val 8 7] ++ ((List.range 8).map fun i => val 8 (13 + i)) = field ∧
    (((List.range 6).map fun r => val r 8) ++ [val 7 8] ++ [val 8 8] ++
      ((List.range 7).map fun i => val (14 + i) 8)).reverse = field ∧
    s.fmt = 0x19D0#15
end

