-- ==== Sys2Proof/Laws/Bits.lean ====
section
/-! SUPPORT. The spec lemmas of bit strings and packed words. -/

namespace Sys2Proof.Machine

@[simp] theorem bin_length (k v : Nat) : (bin k v).length = k := by simp [bin]

theorem bin_getElem (k v i : Nat) (h : i < (bin k v).length) : (bin k v)[i] = v.testBit (k - 1 - i) := by
  simp [bin]

@[simp] theorem wordOf_getLsbD (n : Nat) (f : Nat → Bool) (i : Nat) :
    (wordOf n f).getLsbD i = (decide (i < n) && f i) := by
  induction n with
  | zero => simp [wordOf]
  | succ n ih =>
    rw [wordOf, BitVec.getLsbD_cons]
    by_cases h : i = n
    · simp [h]
    · simp only [h, if_false, ih]
      congr 1
      simp only [decide_eq_decide]
      omega

@[simp] theorem streamBit_nil (j : Nat) : streamBit [] j = false := by simp [streamBit]

theorem streamBit_of_le {b : Bits} {j : Nat} (h : b.length ≤ j) : streamBit b j = false := by
  simp [streamBit, List.getD_eq_getElem?_getD, List.getElem?_eq_none h]

end Sys2Proof.Machine
end

