-- ==== Sys2Proof/Laws/Alnum.lean ====
section
/-! SUPPORT. The spec lemmas of the alphanumeric encoder (40_alnum_encoder.md). -/

namespace Sys2Proof.Machine

/-! ### The table -/

theorem inAlphabet_iff_mem (c : Codeword) : inAlphabet c = true ↔ c ∈ alphabet := by
  rw [inAlphabet, alnumValue, Option.isSome_iff_ne_none, ne_eq, List.idxOf?_eq_none_iff, not_not]

/-- A code's value is its position in the alphabet (R76). -/
theorem alnumValue_getElem (k : Nat) (h : k < alphabet.length) : alnumValue alphabet[k] = some k := by
  have key : ∀ k : Fin 45, alnumValue (alphabet.getD k.val 0#8) = some k.val := by decide +kernel
  have hk : k < 45 := h
  simpa [List.getD_eq_getElem?_getD, List.getElem?_eq_getElem h] using key ⟨k, hk⟩

/-- TABLE values lie in 0..44 (R102). -/
theorem alnumValue_lt {c : Codeword} {v : Nat} (h : alnumValue c = some v) : v < 45 := by
  unfold alnumValue at h
  simp only [List.idxOf?, List.findIdx?_eq_some_iff_getElem] at h
  exact h.1

theorem alnumValue_isSome {c : Codeword} (h : inAlphabet c = true) : ∃ v, alnumValue c = some v :=
  Option.isSome_iff_exists.mp h

/-! ### The input string -/

@[simp] theorem inputString_length (s : State) : s.inputString.length = s.inLen.toNat := by
  have : s.inLen.toNat < 256 := s.inLen.isLt
  simp [State.inputString]; omega

theorem inputString_getElem (s : State) (i : Nat) (h : i < s.inputString.length) :
    s.inputString[i] = s.inChar[i]'(by have := s.inLen.isLt; rw [inputString_length] at h; omega) := by
  simp [State.inputString]

theorem firstInvalid_eq_none_iff (str : List Codeword) :
    firstInvalid str = none ↔ ∀ c ∈ str, inAlphabet c = true := by
  simp [firstInvalid]

/-- `firstInvalid` names the smallest index of a code outside the alphabet (R101). -/
theorem firstInvalid_eq_some_iff (str : List Codeword) (i : Nat) :
    firstInvalid str = some i ↔
      ∃ h : i < str.length, inAlphabet str[i] = false ∧ ∀ j (hj : j < i), inAlphabet (str[j]) = true := by
  simp [firstInvalid, List.findIdx?_eq_some_iff_getElem]

/-! ### The encoding function -/

theorem alnumBits_length : ∀ vs : List Nat, (alnumBits vs).length = 11 * (vs.length / 2) + 6 * (vs.length % 2)
  | [] => by simp [alnumBits]
  | [v] => by simp [alnumBits]
  | v :: w :: rest => by
    have ih := alnumBits_length rest
    simp only [alnumBits, List.length_append, bin_length, ih, List.length_cons]
    omega

theorem filterMap_alnumValue_length {str : List Codeword} (h : ∀ c ∈ str, inAlphabet c = true) :
    (str.filterMap alnumValue).length = str.length := by
  induction str with
  | nil => rfl
  | cons c rest ih =>
    obtain ⟨v, hv⟩ := alnumValue_isSome (h c (by simp))
    simp [List.filterMap_cons_some hv, ih fun c hc => h c (by simp [hc])]

/-- |ALNUM(s)| = 11⌊n/2⌋ + 6(n mod 2) (R103). -/
theorem length_alnum {str : List Codeword} (h : ∀ c ∈ str, inAlphabet c = true) :
    (alnum str).length = 11 * (str.length / 2) + 6 * (str.length % 2) := by
  rw [alnum, alnumBits_length, filterMap_alnumValue_length h]

theorem alnum_pair {c d : Codeword} {v w : Nat} (hc : alnumValue c = some v) (hd : alnumValue d = some w)
    (rest : List Codeword) : alnum (c :: d :: rest) = bin 11 (v * 45 + w) ++ alnum rest := by
  simp [alnum, List.filterMap_cons_some hc, List.filterMap_cons_some hd, alnumBits]

theorem alnum_single {c : Codeword} {v : Nat} (hc : alnumValue c = some v) : alnum [c] = bin 6 v := by
  simp [alnum, List.filterMap_cons_some hc, alnumBits]

@[simp] theorem alnum_nil : alnum [] = [] := rfl

/-! ### Packing and unpacking BITSTR -/

/-- Stream bit j of packed bits (R28). -/
theorem packBits_bit (b : Bits) (j : Nat) (h : j < 64) :
    ((packBits b).toList.getD (j / 32) 0#32).getLsbD (31 - j % 32) = streamBit b j := by
  have hk : j / 32 < 2 := by omega
  have : (packBits b).toList.getD (j / 32) 0#32 = wordOf 32 fun i => streamBit b (32 * (j / 32) + (31 - i)) := by
    simp [packBits, List.getD_eq_getElem?_getD, hk]
  rw [this, wordOf_getLsbD]
  have h1 : 31 - j % 32 < 32 := by omega
  have h2 : 32 * (j / 32) + (31 - (31 - j % 32)) = j := by omega
  simp [h1, h2]

/-- Reading the first |b| bits back gives b (R28, R111). -/
theorem bitString_of_packed {s : State} {b : Bits} (hs : s.bitStr = packBits b) (hl : s.bitLen.toNat = b.length) :
    s.bitString = b := by
  have hb : b.length < 64 := by rw [← hl]; exact s.bitLen.isLt
  apply List.ext_getElem
  · simp [State.bitString, hl]
  · intro j h1 h2
    simp only [State.bitString, List.getElem_map, List.getElem_range, hs]
    rw [packBits_bit b j (by omega)]
    simp [streamBit, h2]

/-- The bit string depends on BITSTR and BITLEN alone. -/
theorem bitString_congr {s t : State} (h1 : s.bitStr = t.bitStr) (h2 : s.bitLen = t.bitLen) :
    s.bitString = t.bitString := by
  simp [State.bitString, h1, h2]

theorem inputString_congr {s t : State} (h1 : s.inChar = t.inChar) (h2 : s.inLen = t.inLen) :
    s.inputString = t.inputString := by
  simp [State.inputString, h1, h2]

/-! ### The body of ALNUM_ENCODE, case by case (R101) -/

theorem alnumBody_invalid {s : State} {i : Nat} (h : firstInvalid s.inputString = some i) :
    alnumBody s = .error .invalidCharacter (BitVec.ofNat 32 i) s := by
  simp [alnumBody, h]

theorem alnumBody_capacity {s : State} (h : firstInvalid s.inputString = none) (hn : 10 < s.inLen.toNat) :
    alnumBody s = .error .capacityExceeded (BitVec.ofNat 32 s.inLen.toNat) s := by
  simp [alnumBody, h, Config.cap, hn]

theorem alnumBody_done {s : State} (h : firstInvalid s.inputString = none) (hn : s.inLen.toNat ≤ 10) :
    alnumBody s = .done { s with
      bitStr := packBits (alnum s.inputString)
      bitLen := BitVec.ofNat 6 (alnum s.inputString).length
      nLatch := s.inLen
      phase := .encoded } := by
  simp [alnumBody, h, Config.cap, Nat.not_lt.mpr hn]

/-- The stream of at most 10 characters has at most 55 bits, so BITLEN holds its length (R28, R103). -/
theorem length_alnum_le {str : List Codeword} (h : ∀ c ∈ str, inAlphabet c = true) (hn : str.length ≤ 10) :
    (alnum str).length ≤ 55 := by
  rw [length_alnum h]; omega

end Sys2Proof.Machine
end

