-- ==== Sys2Proof/Laws/Decode.lean ====
section
/-! SUPPORT. What decoding and encoding do (30_encoding.md R70 to R72). -/

namespace Sys2Proof

@[simp] theorem fieldsOf_cmdWord (op : BitVec 8) (opnd : BitVec 15) :
    fieldsOf (cmdWord op opnd) = { op := op, opnd := opnd, rsv := 0#9 } := by
  simp only [fieldsOf, cmdWord, CmdFields.mk.injEq]
  refine ⟨?_, ?_, ?_⟩ <;> apply BitVec.eq_of_getLsbD_eq <;> intro i hi <;>
    simp only [BitVec.getLsbD_extractLsb', BitVec.getLsbD_append, BitVec.getLsbD_zero]
  · simp [hi]
  · simp [hi, show 8 + i - 8 = i by omega]
  · simp [show ¬(23 + i < 8) by omega, show ¬(23 + i - 8 < 15) by omega]

/-- A word is its three fields (R70). -/
theorem word_eq_fields (w : Word) : w = (fieldsOf w).rsv ++ (fieldsOf w).opnd ++ (fieldsOf w).op := by
  apply BitVec.eq_of_getLsbD_eq
  intro i hi
  simp only [fieldsOf, BitVec.getLsbD_append, BitVec.getLsbD_extractLsb']
  by_cases h1 : i < 8
  · simp [h1]
  · by_cases h2 : i - 8 < 15
    · simp [h1, h2, show 8 + (i - 8) = i by omega]
    · simp [h1, h2, show 23 + (i - 8 - 15) = i by omega, show i - 8 - 15 < 9 by omega]

/-- The opcode map names an instruction exactly for 0x01 to 0x0A (R71). -/
theorem commandOf_isSome (op : BitVec 8) (opnd : BitVec 15) :
    (commandOf op opnd).isSome = true ↔ 0x01 ≤ op.toNat ∧ op.toNat ≤ 0x0A := by
  have h : ∀ op : BitVec 8, (commandOf op 0#15).isSome = true ↔ 0x01 ≤ op.toNat ∧ op.toNat ≤ 0x0A := by decide
  have h' : (commandOf op opnd).isSome = (commandOf op 0#15).isSome := by
    unfold commandOf; repeat' split
    all_goals rfl
  rw [h', h]

/-- A command's fields: its opcode and operand give back its word (R71). -/
theorem encode_of_commandOf {op : BitVec 8} {opnd : BitVec 15} {i : Instr} (h : commandOf op opnd = some i)
    (h0 : op ≠ 0x09#8 → opnd = 0#15) : encode i = some (cmdWord op opnd) := by
  unfold commandOf at h
  by_cases h9 : op = 0x09#8
  · subst h9
    have : i = .bchRem opnd := by simpa using h.symm
    subst this; rfl
  · rw [h0 h9] at h ⊢
    repeat' (first | (cases h; done) | split at h)
    all_goals (cases h; subst_vars; rfl)

/-- What an accepted word is: a command's opcode, RSV = 0, and OPND = 0 outside BCH_REM (R72). -/
theorem decode_ok_iff (w : Word) (i : Instr) : decode w = .ok i ↔
    commandOf (fieldsOf w).op (fieldsOf w).opnd = some i ∧ (fieldsOf w).rsv = 0#9 ∧
      ((fieldsOf w).op ≠ 0x09#8 → (fieldsOf w).opnd = 0#15) := by
  unfold decode
  simp only
  cases commandOf (fieldsOf w).op (fieldsOf w).opnd with
  | none => simp
  | some j =>
    by_cases hr : (fieldsOf w).rsv = 0#9 <;> by_cases ho : (fieldsOf w).op = 0x09#8 <;>
      by_cases hd : (fieldsOf w).opnd = 0#15 <;> simp [hr, ho, hd]

/-- Decoding succeeds exactly on well-formed fields (R72). -/
theorem decode_isOk_iff (w : Word) : (∃ i, decode w = .ok i) ↔ (fieldsOf w).wellFormed = true := by
  have h := commandOf_isSome (fieldsOf w).op (fieldsOf w).opnd
  rw [Option.isSome_iff_exists] at h
  simp only [decode_ok_iff, exists_and_right, CmdFields.wellFormed, CmdFields.opcodeOk, CmdFields.reservedOk,
    CmdFields.operandOk, Bool.and_eq_true, decide_eq_true_eq, ← h]
  tauto

end Sys2Proof
end

