-- ==== Sys2Proof/Laws/SymbolMatrix.lean ====
section
/-! SUPPORT. The read-after-write laws of matrix cells (10_state.md R30). -/

namespace Sys2Proof.Machine

theorem SymbolMatrix.cell_eq {m : SymbolMatrix} {r c : Nat} (hr : r < 21) (hc : c < 21) : m.cell r c = m[r][c] := by
  simp [SymbolMatrix.cell, hr, hc]

theorem SymbolMatrix.cell_write (m : SymbolMatrix) (r c r' c' : Nat) (x : Cell) :
    (m.write r c x).cell r' c' = if r' = r ∧ c' = c ∧ r < 21 ∧ c < 21 then x else m.cell r' c' := by
  unfold SymbolMatrix.write SymbolMatrix.cell
  by_cases h : r < 21 ∧ c < 21 <;> by_cases h' : r' < 21 ∧ c' < 21 <;> simp only [h, h', dif_neg, not_false_eq_true]
  · by_cases hr : r = r'
    · subst hr
      by_cases hc : c = c'
      · subst hc; simp
      · simp [hc, Ne.symm hc]
    · simp [hr, Ne.symm hr]
  · rw [if_neg]; rintro ⟨rfl, rfl, -⟩; exact h' h
  · rw [if_neg]; tauto
  · rw [if_neg]; tauto

theorem SymbolMatrix.cell_fill (m : SymbolMatrix) (r c r' c' : Nat) (v : Bool) :
    (m.fill r c v).cell r' c' =
      if r' = r ∧ c' = c ∧ r < 21 ∧ c < 21 then { filled := true, val := v } else m.cell r' c' :=
  SymbolMatrix.cell_write m r c r' c' _

theorem SymbolMatrix.cell_mapCells (m : SymbolMatrix) (f : Nat → Nat → Cell → Cell) {r c : Nat} (hr : r < 21) (hc : c < 21) :
    (m.mapCells f).cell r c = f r c (m.cell r c) := by
  simp [SymbolMatrix.cell, SymbolMatrix.mapCells, hr, hc]

theorem SymbolMatrix.cell_outside (m : SymbolMatrix) {r c : Nat} (h : ¬(r < 21 ∧ c < 21)) :
    m.cell r c = { filled := false, val := false } := by
  simp only [SymbolMatrix.cell, h, dif_neg, not_false_eq_true]

/-- Matrices with the same cells are equal. -/
theorem SymbolMatrix.ext_cell {m m' : SymbolMatrix} (h : ∀ r c, r < 21 → c < 21 → m.cell r c = m'.cell r c) : m = m' := by
  apply Vector.ext
  intro r hr
  apply Vector.ext
  intro c hc
  simpa [SymbolMatrix.cell, hr, hc] using h r c hr hc

end Sys2Proof.Machine
end

