-- ==== Sys2Proof/Laws/Template.lean ====
section
/-! SUPPORT. Closed facts about the template and the traversal, each settled once by evaluation
(44_matrix_placer.md R141, R147, R148; 46_format_embedder.md R174). -/

namespace Sys2Proof.Machine

theorem tagCount_dataSlot : tagCount .dataSlot = 208 := by decide +kernel

theorem length_visitOrder : visitOrder.length = 208 := by decide +kernel

theorem nodup_visitOrder : visitOrder.Nodup := by decide +kernel

theorem visitOrder_bounds : ∀ p ∈ visitOrder, p.1 < 21 ∧ p.2 < 21 := by decide +kernel

theorem visitOrder_dataSlot : ∀ p ∈ visitOrder, tag p.1 p.2 = .dataSlot := by
  intro p hp
  simpa [visitOrder] using (List.mem_filter.mp hp).2

theorem dataSlot_mem_visitOrder {r c : Nat} (hr : r < 21) (hc : c < 21) (h : tag r c = .dataSlot) :
    (r, c) ∈ visitOrder := by
  have key : ∀ r c : Fin 21, tag r c = .dataSlot → (r.val, c.val) ∈ visitOrder := by decide +kernel
  exact key ⟨r, hr⟩ ⟨c, hc⟩ h

theorem formatBitAt_isSome_iff : ∀ r < 21, ∀ c < 21, (formatBitAt r c).isSome = true ↔ tag r c = .formatReserved := by
  decide +kernel

theorem visitOrder_getElem?_mem {i r c : Nat} (h : visitOrder[i]? = some (r, c)) :
    (r, c) ∈ visitOrder ∧ r < 21 ∧ c < 21 ∧ tag r c = .dataSlot ∧ i < 208 := by
  have hm := List.mem_of_getElem? h
  obtain ⟨hi, -⟩ := List.getElem?_eq_some_iff.mp h
  exact ⟨hm, (visitOrder_bounds _ hm).1, (visitOrder_bounds _ hm).2, visitOrder_dataSlot _ hm,
    by rwa [length_visitOrder] at hi⟩

end Sys2Proof.Machine
end

