-- ==== Sys2Proof/Laws/Embed.lean ====
section
/-! SUPPORT. The spec lemmas of the masker and of the format embedder (45_masker.md, 46_format_embedder.md). -/

namespace Sys2Proof.Machine

/-! ### MASK -/

/-- The mask inverts VAL on FLIP and nothing else (R161). -/
theorem cell_mask (m : SymbolMatrix) {r c : Nat} (hr : r < 21) (hc : c < 21) :
    (m.mapCells maskCell).cell r c =
      if tag r c = .dataSlot ∧ (r + c) % 3 = 0 then
        { filled := (m.cell r c).filled, val := !(m.cell r c).val }
      else m.cell r c := by
  rw [SymbolMatrix.cell_mapCells m maskCell hr hc]
  unfold maskCell inFlip mask3
  simp only [Bool.and_eq_true, decide_eq_true_eq]

/-- MASK is an involution on the matrix (R162). -/
theorem mask_mask (m : SymbolMatrix) : (m.mapCells maskCell).mapCells maskCell = m := by
  apply SymbolMatrix.ext_cell
  intro r c hr hc
  rw [cell_mask _ hr hc, cell_mask _ hr hc]
  split <;> simp

/-! ### FORMAT_EMBED -/

/-- A fold of cell writes, read back: the last write to the cell, or the old cell. -/
theorem cell_foldl_fill (r c : Nat) : ∀ (ws : List CellWrite) (m : SymbolMatrix),
    (ws.foldl (fun m w => m.fill w.row w.col w.val) m).cell r c =
      match (ws.reverse.find? fun w => decide (r = w.row ∧ c = w.col ∧ w.row < 21 ∧ w.col < 21)) with
      | some w => { filled := true, val := w.val }
      | none => m.cell r c
  | [], m => rfl
  | w :: ws, m => by
    rw [List.foldl_cons, cell_foldl_fill r c ws, List.reverse_cons, List.find?_append]
    cases hf : ws.reverse.find? fun w => decide (r = w.row ∧ c = w.col ∧ w.row < 21 ∧ w.col < 21) with
    | some w' => simp
    | none =>
      simp only [Option.none_or, SymbolMatrix.cell_fill]
      by_cases h : r = w.row ∧ c = w.col ∧ w.row < 21 ∧ w.col < 21 <;> simp [h]

/-- The 31 writes of FORMAT_EMBED, each with its bit of FMT, in order (the tables of R172 and R173). -/
def embedWrites : List (Nat × Nat × Nat) :=
  ((List.range 6).map fun c => (8, c, 14 - c)) ++ [(8, 7, 8), (8, 8, 7)] ++
  ((List.range 8).map fun i => (8, 13 + i, 7 - i)) ++
  ((List.range 6).map fun j => (j, 8, j)) ++ [(7, 8, 6), (8, 8, 7)] ++
  ((List.range 7).map fun i => (14 + i, 8, 8 + i))

theorem copies_eq_embedWrites (fmt : BitVec 15) : horizontalCopy fmt ++ verticalCopy fmt =
    embedWrites.map fun w => ⟨w.1, w.2.1, fmt.getLsbD w.2.2⟩ := rfl

theorem embedWrites_find : ∀ r c : Fin 21,
    (embedWrites.reverse.find? fun w => decide (r.val = w.1 ∧ c.val = w.2.1 ∧ w.1 < 21 ∧ w.2.1 < 21)).map
      (fun w => w.2.2) = formatBitAt r.val c.val := by
  decide +kernel

/-- Every FormatReserved cell takes its bit of FMT, and no other cell changes (R171 to R174). -/
theorem cell_embedFormat (fmt : BitVec 15) (m : SymbolMatrix) {r c : Nat} (hr : r < 21) (hc : c < 21) :
    (embedFormat fmt m).cell r c =
      match formatBitAt r c with
      | some k => { filled := true, val := fmt.getLsbD k }
      | none => m.cell r c := by
  have key := embedWrites_find ⟨r, hr⟩ ⟨c, hc⟩
  rw [embedFormat, cell_foldl_fill, copies_eq_embedWrites, ← List.map_reverse, List.find?_map]
  simp only [Function.comp_def] at key ⊢
  rw [← key]
  cases embedWrites.reverse.find? fun w => decide (r = w.1 ∧ c = w.2.1 ∧ w.1 < 21 ∧ w.2.1 < 21) <;> rfl

end Sys2Proof.Machine
end

