-- ==== Sys2Proof/Laws/Format.lean ====
section
/-! SUPPORT. The spec lemmas of the BCH(15,5) divider (43_format_info.md): the loop ends below degree 10 having XORed
multiples of the generator. -/

namespace Sys2Proof.Machine

theorem bitlen_le (v : BitVec 15) : bitlen v ≤ 15 := by
  unfold bitlen
  split
  · omega
  · rename_i h
    have h0 : v.toNat ≠ 0 := by simpa [BitVec.toNat_eq] using h
    have := (Nat.log2_lt h0).mpr v.isLt
    omega

theorem lt_two_pow_bitlen (v : BitVec 15) : v.toNat < 2 ^ bitlen v := by
  unfold bitlen
  split
  · subst_vars; simp
  · exact Nat.lt_log2_self

theorem bitlen_le_of_lt {v : BitVec 15} {k : Nat} (h : v.toNat < 2 ^ k) : bitlen v ≤ k := by
  unfold bitlen
  split
  · omega
  · rename_i hv
    have h0 : v.toNat ≠ 0 := by simpa [BitVec.toNat_eq] using hv
    have := (Nat.log2_lt h0).mpr h
    omega

/-- The top bit is set. -/
theorem testBit_bitlen {v : BitVec 15} (h : 1 ≤ bitlen v) : v.getLsbD (bitlen v - 1) = true := by
  unfold bitlen at h ⊢
  split at h
  · omega
  · rename_i hv
    have h0 : v.toNat ≠ 0 := by simpa [BitVec.toNat_eq] using hv
    simp only [hv, if_false, Nat.add_sub_cancel]
    exact Nat.testBit_log2 h0

/-- Each pass of the loop clears the top bit of v (R130). -/
theorem bitlen_pass_lt {v : BitVec 15} (h : 11 ≤ bitlen v) :
    bitlen (v ^^^ (Config.bchG <<< (bitlen v - 11))) < bitlen v := by
  have hle := bitlen_le v
  have hlt := lt_two_pow_bitlen v
  have htop := testBit_bitlen (v := v) (by omega)
  generalize bitlen v = n at *
  have hn : n = 11 ∨ n = 12 ∨ n = 13 ∨ n = 14 ∨ n = 15 := by omega
  have key : (v ^^^ (Config.bchG <<< (n - 11))).toNat < 2 ^ (n - 1) := by
    apply Nat.lt_pow_two_of_testBit
    intro i hi
    show (v ^^^ (Config.bchG <<< (n - 11))).getLsbD i = false
    rw [BitVec.getLsbD_xor]
    by_cases hin : i = n - 1
    · subst hin
      rw [htop]
      rcases hn with rfl | rfl | rfl | rfl | rfl <;> decide
    · have hv : v.getLsbD i = false := by
        apply Nat.testBit_lt_two_pow
        exact lt_of_lt_of_le hlt (Nat.pow_le_pow_right (by omega) (by omega))
      have hg : (Config.bchG <<< (n - 11)).getLsbD i = false := by
        by_cases h15 : i < 15
        · rw [BitVec.getLsbD_shiftLeft]
          have : Config.bchG.getLsbD (i - (n - 11)) = false := by
            apply Nat.testBit_lt_two_pow
            have : (Config.bchG).toNat < 2 ^ 11 := by decide
            exact lt_of_lt_of_le this (Nat.pow_le_pow_right (by omega) (by omega))
          simp [this]
        · exact BitVec.getLsbD_of_ge _ _ (by omega)
      rw [hv, hg]; rfl
  have := bitlen_le_of_lt key
  omega

/-- The loop ends with a degree below 10 (R130). -/
theorem bitlen_bchLoop : ∀ (fuel : Nat) (v : BitVec 15), bitlen v ≤ 10 + fuel → bitlen (bchLoop fuel v) ≤ 10
  | 0, v, h => by simpa [bchLoop] using h
  | fuel + 1, v, h => by
    unfold bchLoop
    split
    · rename_i hv
      exact bitlen_bchLoop fuel _ (by have := bitlen_pass_lt hv; omega)
    · omega

theorem generatorMultiple_xor_shift : ∀ (q : BitVec 5) (k : Fin 5),
    generatorMultiple q ^^^ (0x537#15 <<< k.val) = generatorMultiple (q ^^^ (1#5 <<< k.val)) := by
  decide +kernel

/-- The loop XORs a multiple of the generator (R130). -/
theorem bchLoop_multiple : ∀ (fuel : Nat) (v : BitVec 15), ∃ q, v = generatorMultiple q ^^^ bchLoop fuel v
  | 0, v => ⟨0#5, by simp [bchLoop, show generatorMultiple 0#5 = 0#15 by decide]⟩
  | fuel + 1, v => by
    unfold bchLoop
    split
    · rename_i hv
      have hk : bitlen v - 11 < 5 := by have := bitlen_le v; omega
      obtain ⟨q, hq⟩ := bchLoop_multiple fuel (v ^^^ (Config.bchG <<< (bitlen v - 11)))
      refine ⟨q ^^^ (1#5 <<< (bitlen v - 11)), ?_⟩
      have := generatorMultiple_xor_shift q ⟨_, hk⟩
      simp only at this
      rw [← this, BitVec.xor_assoc, BitVec.xor_comm (0x537#15 <<< _), ← BitVec.xor_assoc, ← hq]
      simp [Config.bchG]
    · exact ⟨0#5, by simp [show generatorMultiple 0#5 = 0#15 by decide]⟩

/-- BCHREM(d) is the remainder of d on division by the generator (R130). -/
theorem bchrem_remainder (d : BitVec 15) : ∃ q, d = generatorMultiple q ^^^ (bchrem d).setWidth 15 := by
  obtain ⟨q, hq⟩ := bchLoop_multiple 5 d
  refine ⟨q, ?_⟩
  have hb : bitlen (bchLoop 5 d) ≤ 10 := bitlen_bchLoop 5 d (bitlen_le d)
  have hlt : (bchLoop 5 d).toNat < 2 ^ 10 :=
    lt_of_lt_of_le (lt_two_pow_bitlen _) (Nat.pow_le_pow_right (by omega) hb)
  have : (bchrem d).setWidth 15 = bchLoop 5 d := by
    apply BitVec.eq_of_toNat_eq
    simp only [bchrem, BitVec.toNat_setWidth]
    rw [Nat.mod_eq_of_lt hlt, Nat.mod_eq_of_lt (by omega)]
  rw [this, ← hq]

/-- A multiple of the generator of degree below 10 is 0. -/
theorem generatorMultiple_small : ∀ (q : BitVec 5) , (generatorMultiple q).toNat < 2 ^ 10 → q = 0#5 := by
  decide +kernel

theorem generatorMultiple_xor : ∀ p q : BitVec 5,
    generatorMultiple p ^^^ generatorMultiple q = generatorMultiple (p ^^^ q) := by
  decide +kernel

theorem xor_exchange {n : Nat} {a x b y : BitVec n} (h : a ^^^ x = b ^^^ y) : a ^^^ b = x ^^^ y := by
  apply BitVec.eq_of_getLsbD_eq
  intro i _
  have hi := congrArg (fun v => v.getLsbD i) h
  simp only [BitVec.getLsbD_xor] at hi ⊢
  revert hi
  cases a.getLsbD i <;> cases x.getLsbD i <;> cases b.getLsbD i <;> cases y.getLsbD i <;> simp

/-- The remainder is unique: any r of degree below 10 that differs from d by a multiple of the generator is BCHREM(d). -/
theorem bchrem_unique {d : BitVec 15} {q : BitVec 5} {r : BitVec 10}
    (h : d = generatorMultiple q ^^^ r.setWidth 15) : bchrem d = r := by
  obtain ⟨p, hp⟩ := bchrem_remainder d
  have hx : generatorMultiple (p ^^^ q) = ((bchrem d) ^^^ r).setWidth 15 := by
    rw [← generatorMultiple_xor, BitVec.setWidth_xor]
    exact xor_exchange (hp.symm.trans h)
  have hz : p ^^^ q = 0#5 := by
    apply generatorMultiple_small
    rw [hx, BitVec.toNat_setWidth]
    exact lt_of_le_of_lt (Nat.mod_le _ _) (BitVec.isLt _)
  rw [hz, show generatorMultiple 0#5 = 0#15 by decide] at hx
  have hxr : bchrem d ^^^ r = 0#10 := by
    apply BitVec.eq_of_toNat_eq
    have := congrArg BitVec.toNat hx
    rw [BitVec.toNat_setWidth, Nat.mod_eq_of_lt (lt_of_lt_of_le (BitVec.isLt _) (by decide))] at this
    simpa using this.symm
  exact BitVec.xor_eq_zero_iff.mp hxr

/-- The format field of the block is the constant 0x19D0 (R132). -/
theorem formatField_payload : formatField formatPayload = 0x19D0#15 := by decide

end Sys2Proof.Machine
end

