-- ==== Sys2Proof/Laws/Frame.lean ====
section
/-! SUPPORT. The spec lemmas of the codeword framer (41_codeword_framer.md). -/

namespace Sys2Proof.Machine

theorem frameHead_length (n : Nat) (b : Bits) : (frameHead n b).length = 17 + b.length := by
  simp [frameHead, Config.modeInd, Config.countW, Config.term]; omega

theorem padToByte_length (t : Bits) : (padToByte t).length = t.length + (8 - t.length % 8) % 8 := by
  simp [padToByte]

@[simp] theorem padWord_length (k : Nat) : (padWord k).length = 8 := by
  unfold padWord; split <;> rfl

/-- The pad loop appends the missing codewords, numbered from k (R110). -/
theorem padToData_eq (p : Nat) : ∀ (fuel k : Nat) (t : Bits), t.length + 8 * p = 72 → p ≤ fuel →
    padToData fuel k t = t ++ (List.range' k p).flatMap padWord := by
  induction p with
  | zero =>
    intro fuel k t h _
    cases fuel <;> simp [padToData, Config.databits, show ¬ t.length < 72 by omega]
  | succ p ih =>
    intro fuel k t h hf
    obtain ⟨fuel, rfl⟩ : ∃ f, fuel = f + 1 := ⟨fuel - 1, by omega⟩
    rw [padToData, if_pos (by simp [Config.databits]; omega), ih fuel (k + 1) _ (by simp; omega) (by omega),
      List.range'_succ, List.flatMap_cons, List.append_assoc]

/-- FRAMESTREAM in closed form, when the stream before padding fits (R110, R112). -/
theorem frameStream_eq (n : Nat) (b : Bits) (h : 17 + b.length ≤ 72) :
    frameStream n b = frameHead n b ++ List.replicate ((8 - (17 + b.length) % 8) % 8) false ++
      (List.range ((72 - (17 + b.length)) / 8)).flatMap padWord := by
  have hz : (padToByte (frameHead n b)).length = 17 + b.length + (8 - (17 + b.length) % 8) % 8 := by
    rw [padToByte_length, frameHead_length]
  rw [frameStream, padToData_eq ((72 - (17 + b.length)) / 8) _ 0 _ (by rw [hz]; omega) (by simp [Config.ndata]; omega),
    padToByte, frameHead_length, List.range_eq_range']

theorem length_flatMap_padWord (l : List Nat) : (l.flatMap padWord).length = 8 * l.length := by
  induction l with
  | nil => rfl
  | cons k rest ih => simp [ih]; omega

theorem length_frameStream (n : Nat) (b : Bits) (h : 17 + b.length ≤ 72) : (frameStream n b).length = 72 := by
  rw [frameStream_eq n b h]
  simp only [List.length_append, frameHead_length, List.length_replicate, length_flatMap_padWord, List.length_range]
  omega

@[simp] theorem streamCodeword_getLsbD (t : Bits) (k i : Nat) :
    (streamCodeword t k).getLsbD i = (decide (i < 8) && streamBit t (8 * k + (7 - i))) := by
  simp [streamCodeword]

/-- The body of FRAME (R111). -/
theorem frameBody_done {s : State} (h : s.nLatch.toNat ≤ 10) :
    frameBody s = .done { s with
      cw := Vector.ofFn fun k =>
        if k.val < 9 then streamCodeword (frameStream s.nLatch.toNat s.bitString) k.val else s.cw[k.val]
      phase := .framed } := by
  unfold frameBody
  rw [if_neg (by simpa [Config.cap] using h)]
  rfl

theorem frameBody_error {s : State} (h : 10 < s.nLatch.toNat) :
    frameBody s = .error .capacityExceeded (BitVec.ofNat 32 s.nLatch.toNat) s := by
  simp [frameBody, Config.cap, h]

end Sys2Proof.Machine
end

