-- ==== Sys2Proof/Laws/Place.lean ====
section
/-! SUPPORT. The spec lemmas of the matrix placer (44_matrix_placer.md): the walk deposits one bit after another in the
visit order of the strip table, and touches no other cell. -/

namespace Sys2Proof.Machine

/-- The deposits of a walk: cell and placement index, in order. They depend on neither the codewords nor the matrix. -/
def deposits : (fuel : Nat) → ZigZag → BitVec 8 → List ((Nat × Nat) × Nat)
  | 0, _, _ => []
  | fuel + 1, z, b =>
    if z.ended then []
    else if tag z.pos.1 z.pos.2 = .dataSlot then (z.pos, b.toNat) :: deposits fuel z.step (b + 1#8)
    else deposits fuel z.step b

/-- The zig-zag registers and BIDX a walk ends in. -/
def walkEnd : (fuel : Nat) → ZigZag → BitVec 8 → ZigZag × BitVec 8
  | 0, z, b => (z, b)
  | fuel + 1, z, b =>
    if z.ended then (z, b)
    else walkEnd fuel z.step (if tag z.pos.1 z.pos.2 = .dataSlot then b + 1#8 else b)

/-- Make the deposits, one after another. -/
def applyDeposits (cw : Vector Codeword 26) (ds : List ((Nat × Nat) × Nat)) (m : SymbolMatrix) : SymbolMatrix :=
  ds.foldl (fun m d => m.fill d.1.1 d.1.2 (placementBit cw d.2)) m

theorem run_eq_deposits (cw : Vector Codeword 26) : ∀ (fuel : Nat) (w : Walk),
    Walk.run cw fuel w =
      { zig := (walkEnd fuel w.zig w.bidx).1
        bidx := (walkEnd fuel w.zig w.bidx).2
        matrix := applyDeposits cw (deposits fuel w.zig w.bidx) w.matrix }
  | 0, w => rfl
  | fuel + 1, w => by
    unfold Walk.run deposits walkEnd
    by_cases he : w.zig.ended = true
    · simp [he, applyDeposits]
    · by_cases ht : tag w.zig.pos.1 w.zig.pos.2 = .dataSlot
      · simp [he, ht, run_eq_deposits cw fuel, Walk.pass, applyDeposits]
      · simp [he, ht, run_eq_deposits cw fuel, Walk.pass, applyDeposits]

/-- The zig-zag machine visits the DataSlots in the order of the strip table (R147, R148). -/
theorem deposits_start : deposits 420 ZigZag.start 0#8 = visitOrder.zipIdx := by decide +kernel

/-- Where the walk ends: END = 1 after (20, 0), BIDX = 208 (R146, R149). -/
theorem walkEnd_start : walkEnd 420 ZigZag.start 0#8 =
    ({ rc := 1#5, row := 20#5, dir := .down, sub := .right, ended := true }, 208#8) := by decide +kernel

/-- A cell no deposit names is untouched. -/
theorem cell_applyDeposits_not_mem (cw : Vector Codeword 26) (r c : Nat) :
    ∀ (ds : List ((Nat × Nat) × Nat)) (m : SymbolMatrix), (∀ d ∈ ds, d.1 ≠ (r, c)) →
      (applyDeposits cw ds m).cell r c = m.cell r c
  | [], m, _ => rfl
  | d :: ds, m, h => by
    have hd := h d (by simp)
    rw [applyDeposits, List.foldl_cons, ← applyDeposits,
      cell_applyDeposits_not_mem cw r c ds _ fun e he => h e (by simp [he]), SymbolMatrix.cell_fill, if_neg]
    rintro ⟨rfl, rfl, -⟩
    exact hd rfl

/-- A cell one deposit names holds its bit, when no two deposits name one cell. -/
theorem cell_applyDeposits_mem (cw : Vector Codeword 26) (r c i : Nat) (hr : r < 21) (hc : c < 21) :
    ∀ (ds : List ((Nat × Nat) × Nat)) (m : SymbolMatrix), (ds.map Prod.fst).Nodup → ((r, c), i) ∈ ds →
      (applyDeposits cw ds m).cell r c = { filled := true, val := placementBit cw i }
  | [], m, _, h => by simp at h
  | d :: ds, m, hn, h => by
    rw [List.map_cons, List.nodup_cons] at hn
    rw [applyDeposits, List.foldl_cons, ← applyDeposits]
    rcases List.mem_cons.mp h with rfl | h
    · rw [cell_applyDeposits_not_mem]
      · simp [SymbolMatrix.cell_fill, hr, hc]
      · intro e he heq
        exact hn.1 (List.mem_map.mpr ⟨e, he, heq⟩)
    · exact cell_applyDeposits_mem cw r c i hr hc ds _ hn.2 h

/-- The registers PLACE leaves (R146, R149). -/
theorem placeWalk_zig (cw : Vector Codeword 26) (m : SymbolMatrix) : (placeWalk cw m).zig =
    { rc := 1#5, row := 20#5, dir := .down, sub := .right, ended := true } := by
  simp only [placeWalk, run_eq_deposits, walkEnd_start]

theorem placeWalk_bidx (cw : Vector Codeword 26) (m : SymbolMatrix) : (placeWalk cw m).bidx = 208#8 := by
  simp only [placeWalk, run_eq_deposits, walkEnd_start]

theorem placeWalk_matrix (cw : Vector Codeword 26) (m : SymbolMatrix) :
    (placeWalk cw m).matrix = applyDeposits cw visitOrder.zipIdx (m.mapCells initCell) := by
  simp only [placeWalk, run_eq_deposits, deposits_start]

theorem nodup_deposits : (visitOrder.zipIdx.map Prod.fst).Nodup := by
  rw [List.zipIdx_map_fst]; exact nodup_visitOrder

/-- Cell V[i] receives bit i (R150). -/
theorem cell_placeWalk_data (cw : Vector Codeword 26) (m : SymbolMatrix) {i r c : Nat}
    (h : visitOrder[i]? = some (r, c)) :
    (placeWalk cw m).matrix.cell r c = { filled := true, val := placementBit cw i } := by
  obtain ⟨-, hr, hc, -, -⟩ := visitOrder_getElem?_mem h
  rw [placeWalk_matrix]
  exact cell_applyDeposits_mem cw r c i hr hc _ _ nodup_deposits (List.mem_zipIdx_iff_getElem?.mpr h)

/-- Every cell that is no DataSlot is as the template initialises it (R149, R151). -/
theorem cell_placeWalk_other (cw : Vector Codeword 26) (m : SymbolMatrix) {r c : Nat} (hr : r < 21) (hc : c < 21)
    (h : tag r c ≠ .dataSlot) : (placeWalk cw m).matrix.cell r c = initCell r c (m.cell r c) := by
  rw [placeWalk_matrix, cell_applyDeposits_not_mem, SymbolMatrix.cell_mapCells m initCell hr hc]
  rintro ⟨p, i⟩ hd rfl
  exact h (visitOrder_dataSlot _ (List.mem_of_getElem? (List.mem_zipIdx_iff_getElem?.mp hd)))

/-- The body of PLACE: its layout check cannot fire (R141, R149). -/
theorem placeBody_eq (s : State) : placeBody s = .done { s with
    matrix := (placeWalk s.cw s.matrix).matrix
    zig := { rc := 1#5, row := 20#5, dir := .down, sub := .right, ended := true }
    bidx := 208#8
    phase := .placed } := by
  unfold placeBody
  rw [tagCount_dataSlot, if_neg (by simp [Config.ncw])]
  simp only [placeWalk_zig, placeWalk_bidx]

end Sys2Proof.Machine
end

