-- ==== Sys2Proof/Laws/State.lean ====
section
/-! SUPPORT. One lemma per field per update of the state, each true by unfolding once. -/

namespace Sys2Proof.Machine

variable (s : State)


/-! ### The completion update -/

@[simp] theorem State.complete_busy : (s.complete).busy = false := rfl
@[simp] theorem State.complete_err : (s.complete).err = s.err := rfl
@[simp] theorem State.complete_phase : (s.complete).phase = s.phase := rfl
@[simp] theorem State.complete_fmtValid : (s.complete).fmtValid = s.fmtValid := rfl
@[simp] theorem State.complete_errInfo : (s.complete).errInfo = s.errInfo := rfl
@[simp] theorem State.complete_inLen : (s.complete).inLen = s.inLen := rfl
@[simp] theorem State.complete_inChar : (s.complete).inChar = s.inChar := rfl
@[simp] theorem State.complete_bitLen : (s.complete).bitLen = s.bitLen := rfl
@[simp] theorem State.complete_bitStr : (s.complete).bitStr = s.bitStr := rfl
@[simp] theorem State.complete_cw : (s.complete).cw = s.cw := rfl
@[simp] theorem State.complete_matrix : (s.complete).matrix = s.matrix := rfl
@[simp] theorem State.complete_fmt : (s.complete).fmt = s.fmt := rfl
@[simp] theorem State.complete_bchResult : (s.complete).bchResult = s.bchResult := rfl
@[simp] theorem State.complete_nLatch : (s.complete).nLatch = s.nLatch := rfl
@[simp] theorem State.complete_zig : (s.complete).zig = s.zig := rfl
@[simp] theorem State.complete_bidx : (s.complete).bidx = s.bidx := rfl
@[simp] theorem State.complete_cmdLatch : (s.complete).cmdLatch = s.cmdLatch := rfl
@[simp] theorem State.complete_stage : (s.complete).stage = 0#3 := rfl
@[simp] theorem State.complete_rsPort : (s.complete).rsPort = s.rsPort := rfl
@[simp] theorem State.complete_rsTable : (s.complete).rsTable = s.rsTable := rfl
@[simp] theorem State.complete_inputs : (s.complete).inputs = s.inputs := rfl
@[simp] theorem State.complete_readData : (s.complete).readData = s.readData := rfl
@[simp] theorem State.complete_draws : (s.complete).draws = s.draws := rfl

/-! ### Completion without error -/

@[simp] theorem State.succeed_busy : (s.succeed).busy = false := rfl
@[simp] theorem State.succeed_err : (s.succeed).err = .none := rfl
@[simp] theorem State.succeed_phase : (s.succeed).phase = s.phase := rfl
@[simp] theorem State.succeed_fmtValid : (s.succeed).fmtValid = s.fmtValid := rfl
@[simp] theorem State.succeed_errInfo : (s.succeed).errInfo = 0#32 := rfl
@[simp] theorem State.succeed_inLen : (s.succeed).inLen = s.inLen := rfl
@[simp] theorem State.succeed_inChar : (s.succeed).inChar = s.inChar := rfl
@[simp] theorem State.succeed_bitLen : (s.succeed).bitLen = s.bitLen := rfl
@[simp] theorem State.succeed_bitStr : (s.succeed).bitStr = s.bitStr := rfl
@[simp] theorem State.succeed_cw : (s.succeed).cw = s.cw := rfl
@[simp] theorem State.succeed_matrix : (s.succeed).matrix = s.matrix := rfl
@[simp] theorem State.succeed_fmt : (s.succeed).fmt = s.fmt := rfl
@[simp] theorem State.succeed_bchResult : (s.succeed).bchResult = s.bchResult := rfl
@[simp] theorem State.succeed_nLatch : (s.succeed).nLatch = s.nLatch := rfl
@[simp] theorem State.succeed_zig : (s.succeed).zig = s.zig := rfl
@[simp] theorem State.succeed_bidx : (s.succeed).bidx = s.bidx := rfl
@[simp] theorem State.succeed_cmdLatch : (s.succeed).cmdLatch = s.cmdLatch := rfl
@[simp] theorem State.succeed_stage : (s.succeed).stage = 0#3 := rfl
@[simp] theorem State.succeed_rsPort : (s.succeed).rsPort = s.rsPort := rfl
@[simp] theorem State.succeed_rsTable : (s.succeed).rsTable = s.rsTable := rfl
@[simp] theorem State.succeed_inputs : (s.succeed).inputs = s.inputs := rfl
@[simp] theorem State.succeed_readData : (s.succeed).readData = s.readData := rfl
@[simp] theorem State.succeed_draws : (s.succeed).draws = s.draws := rfl

/-! ### Raising an error -/

@[simp] theorem State.raise_busy (e : ErrCode) (info : Word) : (s.raise e info).busy = false := by
  unfold State.raise; split <;> simp_all
@[simp] theorem State.raise_err (e : ErrCode) (info : Word) : (s.raise e info).err = e := by
  unfold State.raise; split <;> simp_all
@[simp] theorem State.raise_phase (e : ErrCode) (info : Word) : (s.raise e info).phase = if e.isStageError then .idle else s.phase := by
  unfold State.raise; split <;> simp_all
@[simp] theorem State.raise_fmtValid (e : ErrCode) (info : Word) : (s.raise e info).fmtValid = s.fmtValid := by
  unfold State.raise; split <;> simp_all
@[simp] theorem State.raise_errInfo (e : ErrCode) (info : Word) : (s.raise e info).errInfo = info := by
  unfold State.raise; split <;> simp_all
@[simp] theorem State.raise_inLen (e : ErrCode) (info : Word) : (s.raise e info).inLen = s.inLen := by
  unfold State.raise; split <;> simp_all
@[simp] theorem State.raise_inChar (e : ErrCode) (info : Word) : (s.raise e info).inChar = s.inChar := by
  unfold State.raise; split <;> simp_all
@[simp] theorem State.raise_bitLen (e : ErrCode) (info : Word) : (s.raise e info).bitLen = s.bitLen := by
  unfold State.raise; split <;> simp_all
@[simp] theorem State.raise_bitStr (e : ErrCode) (info : Word) : (s.raise e info).bitStr = s.bitStr := by
  unfold State.raise; split <;> simp_all
@[simp] theorem State.raise_cw (e : ErrCode) (info : Word) : (s.raise e info).cw = s.cw := by
  unfold State.raise; split <;> simp_all
@[simp] theorem State.raise_matrix (e : ErrCode) (info : Word) : (s.raise e info).matrix = s.matrix := by
  unfold State.raise; split <;> simp_all
@[simp] theorem State.raise_fmt (e : ErrCode) (info : Word) : (s.raise e info).fmt = s.fmt := by
  unfold State.raise; split <;> simp_all
@[simp] theorem State.raise_bchResult (e : ErrCode) (info : Word) : (s.raise e info).bchResult = s.bchResult := by
  unfold State.raise; split <;> simp_all
@[simp] theorem State.raise_nLatch (e : ErrCode) (info : Word) : (s.raise e info).nLatch = s.nLatch := by
  unfold State.raise; split <;> simp_all
@[simp] theorem State.raise_zig (e : ErrCode) (info : Word) : (s.raise e info).zig = s.zig := by
  unfold State.raise; split <;> simp_all
@[simp] theorem State.raise_bidx (e : ErrCode) (info : Word) : (s.raise e info).bidx = s.bidx := by
  unfold State.raise; split <;> simp_all
@[simp] theorem State.raise_cmdLatch (e : ErrCode) (info : Word) : (s.raise e info).cmdLatch = s.cmdLatch := by
  unfold State.raise; split <;> simp_all
@[simp] theorem State.raise_stage (e : ErrCode) (info : Word) : (s.raise e info).stage = 0#3 := by
  unfold State.raise; split <;> simp_all
@[simp] theorem State.raise_rsPort (e : ErrCode) (info : Word) : (s.raise e info).rsPort = if e.isStageError then .none else s.rsPort := by
  unfold State.raise; split <;> simp_all
@[simp] theorem State.raise_rsTable (e : ErrCode) (info : Word) : (s.raise e info).rsTable = s.rsTable := by
  unfold State.raise; split <;> simp_all
@[simp] theorem State.raise_inputs (e : ErrCode) (info : Word) : (s.raise e info).inputs = s.inputs := by
  unfold State.raise; split <;> simp_all
@[simp] theorem State.raise_readData (e : ErrCode) (info : Word) : (s.raise e info).readData = s.readData := by
  unfold State.raise; split <;> simp_all
@[simp] theorem State.raise_draws (e : ErrCode) (info : Word) : (s.raise e info).draws = s.draws := by
  unfold State.raise; split <;> simp_all

/-! ### Sending a request -/

@[simp] theorem State.sendRequest_busy (data : Vector Codeword 9) : (s.sendRequest data).busy = s.busy := rfl
@[simp] theorem State.sendRequest_err (data : Vector Codeword 9) : (s.sendRequest data).err = s.err := rfl
@[simp] theorem State.sendRequest_phase (data : Vector Codeword 9) : (s.sendRequest data).phase = s.phase := rfl
@[simp] theorem State.sendRequest_fmtValid (data : Vector Codeword 9) : (s.sendRequest data).fmtValid = s.fmtValid := rfl
@[simp] theorem State.sendRequest_errInfo (data : Vector Codeword 9) : (s.sendRequest data).errInfo = s.errInfo := rfl
@[simp] theorem State.sendRequest_inLen (data : Vector Codeword 9) : (s.sendRequest data).inLen = s.inLen := rfl
@[simp] theorem State.sendRequest_inChar (data : Vector Codeword 9) : (s.sendRequest data).inChar = s.inChar := rfl
@[simp] theorem State.sendRequest_bitLen (data : Vector Codeword 9) : (s.sendRequest data).bitLen = s.bitLen := rfl
@[simp] theorem State.sendRequest_bitStr (data : Vector Codeword 9) : (s.sendRequest data).bitStr = s.bitStr := rfl
@[simp] theorem State.sendRequest_cw (data : Vector Codeword 9) : (s.sendRequest data).cw = s.cw := rfl
@[simp] theorem State.sendRequest_matrix (data : Vector Codeword 9) : (s.sendRequest data).matrix = s.matrix := rfl
@[simp] theorem State.sendRequest_fmt (data : Vector Codeword 9) : (s.sendRequest data).fmt = s.fmt := rfl
@[simp] theorem State.sendRequest_bchResult (data : Vector Codeword 9) : (s.sendRequest data).bchResult = s.bchResult := rfl
@[simp] theorem State.sendRequest_nLatch (data : Vector Codeword 9) : (s.sendRequest data).nLatch = s.nLatch := rfl
@[simp] theorem State.sendRequest_zig (data : Vector Codeword 9) : (s.sendRequest data).zig = s.zig := rfl
@[simp] theorem State.sendRequest_bidx (data : Vector Codeword 9) : (s.sendRequest data).bidx = s.bidx := rfl
@[simp] theorem State.sendRequest_cmdLatch (data : Vector Codeword 9) : (s.sendRequest data).cmdLatch = s.cmdLatch := rfl
@[simp] theorem State.sendRequest_stage (data : Vector Codeword 9) : (s.sendRequest data).stage = s.stage := rfl
@[simp] theorem State.sendRequest_rsPort (data : Vector Codeword 9) : (s.sendRequest data).rsPort = some { data := data, ecLen := 17 } := rfl
@[simp] theorem State.sendRequest_rsTable (data : Vector Codeword 9) : (s.sendRequest data).rsTable = s.rsTable := rfl
@[simp] theorem State.sendRequest_inputs (data : Vector Codeword 9) : (s.sendRequest data).inputs = s.inputs := rfl
@[simp] theorem State.sendRequest_readData (data : Vector Codeword 9) : (s.sendRequest data).readData = s.readData := rfl
@[simp] theorem State.sendRequest_draws (data : Vector Codeword 9) : (s.sendRequest data).draws = s.draws := rfl

/-! ### Starting a command -/

@[simp] theorem State.startCommand_busy (w : Word) : (s.startCommand w).busy = true := rfl
@[simp] theorem State.startCommand_err (w : Word) : (s.startCommand w).err = s.err := rfl
@[simp] theorem State.startCommand_phase (w : Word) : (s.startCommand w).phase = s.phase := rfl
@[simp] theorem State.startCommand_fmtValid (w : Word) : (s.startCommand w).fmtValid = s.fmtValid := rfl
@[simp] theorem State.startCommand_errInfo (w : Word) : (s.startCommand w).errInfo = s.errInfo := rfl
@[simp] theorem State.startCommand_inLen (w : Word) : (s.startCommand w).inLen = s.inLen := rfl
@[simp] theorem State.startCommand_inChar (w : Word) : (s.startCommand w).inChar = s.inChar := rfl
@[simp] theorem State.startCommand_bitLen (w : Word) : (s.startCommand w).bitLen = s.bitLen := rfl
@[simp] theorem State.startCommand_bitStr (w : Word) : (s.startCommand w).bitStr = s.bitStr := rfl
@[simp] theorem State.startCommand_cw (w : Word) : (s.startCommand w).cw = s.cw := rfl
@[simp] theorem State.startCommand_matrix (w : Word) : (s.startCommand w).matrix = s.matrix := rfl
@[simp] theorem State.startCommand_fmt (w : Word) : (s.startCommand w).fmt = s.fmt := rfl
@[simp] theorem State.startCommand_bchResult (w : Word) : (s.startCommand w).bchResult = s.bchResult := rfl
@[simp] theorem State.startCommand_nLatch (w : Word) : (s.startCommand w).nLatch = s.nLatch := rfl
@[simp] theorem State.startCommand_zig (w : Word) : (s.startCommand w).zig = s.zig := rfl
@[simp] theorem State.startCommand_bidx (w : Word) : (s.startCommand w).bidx = s.bidx := rfl
@[simp] theorem State.startCommand_cmdLatch (w : Word) : (s.startCommand w).cmdLatch = w := rfl
@[simp] theorem State.startCommand_stage (w : Word) : (s.startCommand w).stage = s.stage := rfl
@[simp] theorem State.startCommand_rsPort (w : Word) : (s.startCommand w).rsPort = s.rsPort := rfl
@[simp] theorem State.startCommand_rsTable (w : Word) : (s.startCommand w).rsTable = s.rsTable := rfl
@[simp] theorem State.startCommand_inputs (w : Word) : (s.startCommand w).inputs = s.inputs := rfl
@[simp] theorem State.startCommand_readData (w : Word) : (s.startCommand w).readData = s.readData := rfl
@[simp] theorem State.startCommand_draws (w : Word) : (s.startCommand w).draws = s.draws := rfl

/-! ### Clearing -/

@[simp] theorem State.clearState_busy : (clearState s).busy = s.busy := rfl
@[simp] theorem State.clearState_err : (clearState s).err = s.err := rfl
@[simp] theorem State.clearState_phase : (clearState s).phase = .idle := rfl
@[simp] theorem State.clearState_fmtValid : (clearState s).fmtValid = false := rfl
@[simp] theorem State.clearState_errInfo : (clearState s).errInfo = s.errInfo := rfl
@[simp] theorem State.clearState_inLen : (clearState s).inLen = s.inLen := rfl
@[simp] theorem State.clearState_inChar : (clearState s).inChar = s.inChar := rfl
@[simp] theorem State.clearState_bitLen : (clearState s).bitLen = 0#6 := rfl
@[simp] theorem State.clearState_bitStr : (clearState s).bitStr = Vector.replicate 2 0#32 := rfl
@[simp] theorem State.clearState_cw : (clearState s).cw = Vector.replicate 26 0#8 := rfl
@[simp] theorem State.clearState_matrix : (clearState s).matrix = SymbolMatrix.mapCells s.matrix fun _ _ x => { x with filled := false } := rfl
@[simp] theorem State.clearState_fmt : (clearState s).fmt = 0#15 := rfl
@[simp] theorem State.clearState_bchResult : (clearState s).bchResult = 0#10 := rfl
@[simp] theorem State.clearState_nLatch : (clearState s).nLatch = 0#8 := rfl
@[simp] theorem State.clearState_zig : (clearState s).zig = ZigZag.start := rfl
@[simp] theorem State.clearState_bidx : (clearState s).bidx = 0#8 := rfl
@[simp] theorem State.clearState_cmdLatch : (clearState s).cmdLatch = 0#32 := rfl
@[simp] theorem State.clearState_stage : (clearState s).stage = s.stage := rfl
@[simp] theorem State.clearState_rsPort : (clearState s).rsPort = s.rsPort := rfl
@[simp] theorem State.clearState_rsTable : (clearState s).rsTable = s.rsTable := rfl
@[simp] theorem State.clearState_inputs : (clearState s).inputs = s.inputs := rfl
@[simp] theorem State.clearState_readData : (clearState s).readData = s.readData := rfl
@[simp] theorem State.clearState_draws : (clearState s).draws = s.draws := rfl

/-! ### Resetting -/

@[simp] theorem State.resetFrom_busy : (s.resetFrom).busy = (State.resetAt s.draws).busy := rfl
@[simp] theorem State.resetFrom_err : (s.resetFrom).err = (State.resetAt s.draws).err := rfl
@[simp] theorem State.resetFrom_phase : (s.resetFrom).phase = (State.resetAt s.draws).phase := rfl
@[simp] theorem State.resetFrom_fmtValid : (s.resetFrom).fmtValid = (State.resetAt s.draws).fmtValid := rfl
@[simp] theorem State.resetFrom_errInfo : (s.resetFrom).errInfo = (State.resetAt s.draws).errInfo := rfl
@[simp] theorem State.resetFrom_inLen : (s.resetFrom).inLen = (State.resetAt s.draws).inLen := rfl
@[simp] theorem State.resetFrom_inChar : (s.resetFrom).inChar = (State.resetAt s.draws).inChar := rfl
@[simp] theorem State.resetFrom_bitLen : (s.resetFrom).bitLen = (State.resetAt s.draws).bitLen := rfl
@[simp] theorem State.resetFrom_bitStr : (s.resetFrom).bitStr = (State.resetAt s.draws).bitStr := rfl
@[simp] theorem State.resetFrom_cw : (s.resetFrom).cw = (State.resetAt s.draws).cw := rfl
@[simp] theorem State.resetFrom_matrix : (s.resetFrom).matrix = (State.resetAt s.draws).matrix := rfl
@[simp] theorem State.resetFrom_fmt : (s.resetFrom).fmt = (State.resetAt s.draws).fmt := rfl
@[simp] theorem State.resetFrom_bchResult : (s.resetFrom).bchResult = (State.resetAt s.draws).bchResult := rfl
@[simp] theorem State.resetFrom_nLatch : (s.resetFrom).nLatch = (State.resetAt s.draws).nLatch := rfl
@[simp] theorem State.resetFrom_zig : (s.resetFrom).zig = (State.resetAt s.draws).zig := rfl
@[simp] theorem State.resetFrom_bidx : (s.resetFrom).bidx = (State.resetAt s.draws).bidx := rfl
@[simp] theorem State.resetFrom_cmdLatch : (s.resetFrom).cmdLatch = (State.resetAt s.draws).cmdLatch := rfl
@[simp] theorem State.resetFrom_stage : (s.resetFrom).stage = (State.resetAt s.draws).stage := rfl
@[simp] theorem State.resetFrom_rsPort : (s.resetFrom).rsPort = (State.resetAt s.draws).rsPort := rfl
@[simp] theorem State.resetFrom_rsTable : (s.resetFrom).rsTable = s.rsTable := rfl
@[simp] theorem State.resetFrom_inputs : (s.resetFrom).inputs = s.inputs := rfl
@[simp] theorem State.resetFrom_readData : (s.resetFrom).readData = s.readData := rfl
@[simp] theorem State.resetFrom_draws : (s.resetFrom).draws = (State.resetAt s.draws).draws := rfl

end Sys2Proof.Machine
end

