-- ==== Sys2Proof/Laws/Pipeline.lean ====
section
/-! SUPPORT. The spec lemmas of the command cycle and of ENCODE (47_pipeline_control.md): each stage's body in closed form,
and what a command that ends has written. -/

namespace Sys2Proof.Machine

theorem ifPhase_of_ok {s : State} {i : Instr} (body : State → State) (h : phaseOk i s = true) :
    s.ifPhase i body = body s := by simp [State.ifPhase, h]

theorem ifPhase_of_not {s : State} {i : Instr} (body : State → State) (h : phaseOk i s = false) :
    s.ifPhase i body = { s with err := .sequenceError, errInfo := s.cmdLatch, busy := false, stage := 0#3 } := by
  simp [State.ifPhase, h, State.refuse, State.raise, ErrCode.isStageError, State.complete]

@[simp] theorem finish_done (s : State) : (StageOutcome.done s).finish =
    { s with err := .none, errInfo := 0#32, busy := false, stage := 0#3 } := rfl

theorem finish_error {e : ErrCode} (he : e.isStageError = true) (info : Word) (s : State) :
    (StageOutcome.error e info s).finish =
      { s with phase := .idle, err := e, errInfo := info, rsPort := none, busy := false, stage := 0#3 } := by
  simp [StageOutcome.finish, State.raise, he, State.complete]

theorem raise_stage {e : ErrCode} (he : e.isStageError = true) (info : Word) (s : State) :
    s.raise e info =
      { s with phase := .idle, err := e, errInfo := info, rsPort := none, busy := false, stage := 0#3 } := by
  simp [State.raise, he, State.complete]

/-- Every valid character, as the string sees it. -/
theorem validInput_iff (s : State) : s.ValidInput ↔ ∀ c ∈ s.inputString, inAlphabet c = true := by
  constructor
  · intro h c hc
    obtain ⟨i, hi, rfl⟩ := List.getElem_of_mem hc
    rw [inputString_getElem]
    have hl := s.inLen.isLt
    rw [inputString_length] at hi
    exact h ⟨i, by omega⟩ hi
  · intro h i hi
    have hlen : i.val < s.inputString.length := by rw [inputString_length]; exact hi
    have := h _ (List.getElem_mem hlen)
    rwa [inputString_getElem] at this

theorem firstInvalid_of_valid {s : State} (h : s.ValidInput) : firstInvalid s.inputString = none :=
  (firstInvalid_eq_none_iff _).mpr ((validInput_iff s).mp h)

/-- The smallest bad slot is the one reported (40_alnum_encoder.md R101). -/
theorem firstInvalid_of_slot {s : State} {i : Fin 255} (hi : i.val < s.inLen.toNat)
    (hb : inAlphabet s.inChar[i] = false) (hs : ∀ j : Fin 255, j.val < i.val → inAlphabet s.inChar[j] = true) :
    firstInvalid s.inputString = some i.val := by
  refine (firstInvalid_eq_some_iff _ _).mpr ⟨by rw [inputString_length]; exact hi, ?_, ?_⟩
  · rw [inputString_getElem]; exact hb
  · intro j hj
    rw [inputString_getElem]
    exact hs ⟨j, by omega⟩ hj

/-- Stages 1 and 2 on a valid input that fits: the framed codewords of its encoding. -/
theorem encodeFront_done {s : State} (hv : s.ValidInput) (hn : s.inLen.toNat ≤ 10) :
    encodeFront s = .done { s with
      bitStr := packBits (alnum s.inputString)
      bitLen := BitVec.ofNat 6 (alnum s.inputString).length
      nLatch := s.inLen
      cw := Vector.ofFn fun k => if k.val < 9 then
        streamCodeword (frameStream s.inLen.toNat (alnum s.inputString)) k.val else s.cw[k.val]
      phase := .framed } := by
  have hb : (alnum s.inputString).length ≤ 55 :=
    length_alnum_le ((validInput_iff s).mp hv) (by rw [inputString_length]; exact hn)
  rw [encodeFront, alnumBody_done (firstInvalid_of_valid hv) hn]
  generalize hu : ({ s with
      bitStr := packBits (alnum s.inputString)
      bitLen := BitVec.ofNat 6 (alnum s.inputString).length
      nLatch := s.inLen
      phase := .encoded } : State) = u
  have hl : u.nLatch = s.inLen := by rw [← hu]
  have hbits : u.bitString = alnum s.inputString := by
    refine bitString_of_packed (by rw [← hu]) ?_
    rw [← hu]
    show (BitVec.ofNat 6 _).toNat = _
    rw [BitVec.toNat_ofNat, Nat.mod_eq_of_lt (by omega)]
  rw [StageOutcome.andThen, frameBody_done (by rw [hl]; exact hn), hbits, hl, ← hu]

theorem encodeFront_invalid {s : State} {i : Nat} (h : firstInvalid s.inputString = some i) :
    encodeFront s = .error .invalidCharacter (BitVec.ofNat 32 i) s := by
  rw [encodeFront, alnumBody_invalid h, StageOutcome.andThen]

theorem encodeFront_capacity {s : State} (hv : s.ValidInput) (hn : 10 < s.inLen.toNat) :
    encodeFront s = .error .capacityExceeded (BitVec.ofNat 32 s.inLen.toNat) s := by
  rw [encodeFront, alnumBody_capacity (firstInvalid_of_valid hv) hn, StageOutcome.andThen]

/-- CW[0..8] after FRAME's write. -/
theorem dataCodewords_of_framed {s : State} {t : Bits} (old : Vector Codeword 26)
    (h : s.cw = Vector.ofFn fun k => if k.val < 9 then streamCodeword t k.val else old[k.val]) :
    s.dataCodewords = Vector.ofFn fun k => streamCodeword t k.val := by
  apply Vector.ext
  intro k hk
  simp [State.dataCodewords, h]

theorem augmentBody_fail (e : Nat) (s : State) : augmentBody (.fail e) s =
    .error .rsFailure (Config.rsErrInfo e) { s with rsPort := none } := rfl

theorem augmentBody_mismatch {seq : List Codeword} (h : seq.length ≠ 26) (s : State) : augmentBody (.ok seq) s =
    .error .layoutMismatch (BitVec.ofNat 32 (8 * seq.length)) { s with rsPort := none } := by
  simp [augmentBody, h]

theorem augmentBody_done {seq : List Codeword} (h : seq.length = 26) (s : State) :
    ∃ cw : Vector Codeword 26, cw.toList = seq ∧
      augmentBody (.ok seq) s = .done { s with rsPort := none, cw := cw, phase := .augmented } :=
  ⟨⟨seq.toArray, by simp [h]⟩, by simp, by simp [augmentBody, h]⟩

theorem formatBuildBody_eq (s : State) : formatBuildBody s = .done { s with fmt := 0x19D0#15, fmtValid := true } := by
  rw [formatBuildBody, formatField_payload]

/-- Stages 4 to 7 after stage 3 (R181). -/
theorem encodeBack_done {a : RsAnswer} {s u : State} (h : augmentBody a s = .done u) :
    encodeBack a s = .done { u with
      fmt := 0x19D0#15
      fmtValid := true
      matrix := embedFormat 0x19D0#15 ((placeWalk u.cw u.matrix).matrix.mapCells maskCell)
      zig := { rc := 1#5, row := 20#5, dir := .down, sub := .right, ended := true }
      bidx := 208#8
      phase := .embedded } := by
  rw [encodeBack, h]
  simp only [StageOutcome.andThen, formatBuildBody_eq, placeBody_eq, maskBody, embedBody]

theorem encodeBack_error {a : RsAnswer} {s u : State} {e : ErrCode} {info : Word} (h : augmentBody a s = .error e info u) :
    encodeBack a s = .error e info u := by
  rw [encodeBack, h]; rfl

/-! ### The finished matrix, cell by cell -/

/-- A DataSlot is no FormatReserved cell. -/
theorem formatBitAt_of_not_reserved {r c : Nat} (hr : r < 21) (hc : c < 21) (h : tag r c ≠ .formatReserved) :
    formatBitAt r c = none := by
  have := formatBitAt_isSome_iff r hr c hc
  cases hf : formatBitAt r c with
  | none => rfl
  | some k => exact absurd (this.mp (by simp [hf])) h

theorem cell_embed_of_not_reserved (fmt : BitVec 15) (m : SymbolMatrix) {r c : Nat} (hr : r < 21) (hc : c < 21)
    (h : tag r c ≠ .formatReserved) : (embedFormat fmt m).cell r c = m.cell r c := by
  rw [cell_embedFormat fmt m hr hc, formatBitAt_of_not_reserved hr hc h]

theorem cell_mask_of_not_slot (m : SymbolMatrix) {r c : Nat} (hr : r < 21) (hc : c < 21) (h : tag r c ≠ .dataSlot) :
    (m.mapCells maskCell).cell r c = m.cell r c := by
  rw [cell_mask m hr hc, if_neg fun hh => h hh.1]

theorem cell_mask_of_slot (m : SymbolMatrix) {r c : Nat} (hr : r < 21) (hc : c < 21) (h : tag r c = .dataSlot) :
    (m.mapCells maskCell).cell r c =
      { filled := (m.cell r c).filled, val := (m.cell r c).val ^^ mask3 r c } := by
  rw [cell_mask m hr hc]
  unfold mask3
  by_cases h3 : (r + c) % 3 = 0 <;> simp [h, h3]

end Sys2Proof.Machine
end

