-- ==== Sys2Proof/Laws/Step.lean ====
section
/-! SUPPORT. What one step can do, said once: the inversion lemma of `step`, and when a meaning answers. -/

namespace Sys2Proof.Machine

/-- No bus operation has a command word (30_encoding.md R81). -/
theorem decode_ne_wr {w : Word} {a : Addr} {v : Word} : decode w ≠ .ok (.wr a v) := by
  intro h
  have h1 := ((decode_ok_iff _ _).mp h).1
  unfold commandOf at h1
  repeat' split at h1
  all_goals simp at h1

theorem decode_ne_rd {w : Word} {a : Addr} : decode w ≠ .ok (.rd a) := by
  intro h
  have h1 := ((decode_ok_iff _ _).mp h).1
  unfold commandOf at h1
  repeat' split at h1
  all_goals simp at h1

/-- A step that answers a next state is one of these: a host read, a host write outside BUSY, a reset, no move, or the
move of the command in CMD_LATCH. -/
theorem step_next_cases {s t : State} (h : step s = .next t) :
    (∃ a rest, s.inputs = .rd a :: rest ∧ exec (.rd a) { s with inputs := rest } = .next t) ∨
    (∃ a v rest, s.inputs = .wr a v :: rest ∧ s.busy = false ∧
      t = State.hostWrite { s with inputs := rest } a v) ∨
    (∃ rest, s.inputs = .reset :: rest ∧ t = State.resetFrom { s with inputs := rest }) ∨
    (∃ rest, t = { s with inputs := rest }) ∨
    (∃ rest, s.busy = true ∧ runCommand { s with inputs := rest } = .next t ∧
      (s.rsPort = none ∧ s.inputs = [] ∧ rest = [] ∨ s.rsPort = none ∧ s.inputs = .block :: rest ∨
        s.rsPort.isSome = true ∧ s.inputs = .answer :: rest)) := by
  unfold step at h
  split at h
  · rename_i hi
    unfold blockMove at h
    split at h
    · rename_i hb
      simp only [State.rsPending, Bool.and_eq_true, Bool.not_eq_true', Option.isSome_eq_false_iff, Option.isNone_iff_eq_none] at hb
      exact .inr (.inr (.inr (.inr ⟨[], hb.1, by rw [← hi]; exact h, .inl ⟨hb.2, hi, rfl⟩⟩)))
    · exact .inr (.inr (.inr (.inl ⟨[], by cases h; rw [← hi]⟩)))
  · rename_i x rest hi
    cases x with
    | rd a => exact .inl ⟨a, rest, hi, h⟩
    | wr a v =>
      simp only [move, exec, execWr] at h
      split at h
      · cases h
      · rename_i hb
        cases h
        exact .inr (.inl ⟨a, v, rest, hi, by simpa using hb, rfl⟩)
    | block =>
      simp only [move, blockMove] at h
      split at h
      · rename_i hb
        simp only [State.rsPending, Bool.and_eq_true, Bool.not_eq_true', Option.isSome_eq_false_iff, Option.isNone_iff_eq_none] at hb
        exact .inr (.inr (.inr (.inr ⟨rest, hb.1, h, .inr (.inl ⟨hb.2, hi⟩)⟩)))
      · cases h
        exact .inr (.inr (.inr (.inl ⟨rest, rfl⟩)))
    | answer =>
      simp only [move, answerMove] at h
      split at h
      · rename_i hb
        simp only [State.rsPending, Bool.and_eq_true] at hb
        exact .inr (.inr (.inr (.inr ⟨rest, hb.1, h, .inr (.inr ⟨hb.2, hi⟩)⟩)))
      · cases h
        exact .inr (.inr (.inr (.inl ⟨rest, rfl⟩)))
    | reset =>
      cases h
      exact .inr (.inr (.inl ⟨rest, hi, rfl⟩))

/-- The move of the command in CMD_LATCH: the decoded command, or ILLEGAL_COMMAND. -/
theorem runCommand_next_cases {s t : State} (h : runCommand s = .next t) :
    (∃ i, decode s.cmdLatch = .ok i ∧ exec i s = .next t) ∨ t = s.refuse .illegalCommand := by
  unfold runCommand at h
  cases hd : decode s.cmdLatch with
  | ok i => rw [hd] at h; exact .inl ⟨i, rfl, h⟩
  | error e => rw [hd] at h; exact .inr (by cases h; rfl)

/-- Two steps, when the first answers. -/
theorem run_two {M : Host.Core} {s s' : M.State} (h : M.step s = .next s') : M.run 2 s = M.step s' := by
  simp only [Host.Core.run, h]
  cases M.step s' <;> rfl

end Sys2Proof.Machine
end

