-- ==== Sys2Proof/Laws/Effects.lean ====
section
/-! SUPPORT. What a command's move can do, said once: the inversion lemma of `exec` on commands, and the spec lemmas it is
made of. -/

namespace Sys2Proof.Machine

/-! ### The commands that succeed -/

/-- BITSTR and BITLEN written from an encoded string read back as it. -/
theorem bitString_of_encoded {s u : State} (hv : s.ValidInput) (hn : s.inLen.toNat ≤ 10) (h1 : u.bitStr = packBits (alnum s.inputString)) (h2 : u.bitLen = BitVec.ofNat 6 (alnum s.inputString).length) : u.bitString = alnum s.inputString := by
  have hb : (alnum s.inputString).length ≤ 55 := length_alnum_le ((validInput_iff s).mp hv) (by rw [inputString_length]; exact hn)
  refine bitString_of_packed h1 ?_
  rw [h2, BitVec.toNat_ofNat, Nat.mod_eq_of_lt (by omega)]

theorem exec_alnumEncode_valid {s : State} (hv : s.ValidInput) (hn : s.inLen.toNat ≤ 10) : exec .alnumEncode s = .next { s with
      bitStr := packBits (alnum s.inputString)
      bitLen := BitVec.ofNat 6 (alnum s.inputString).length
      nLatch := s.inLen
      phase := .encoded, err := .none, errInfo := 0#32, busy := false, stage := 0#3 } := by
  simp only [exec, execAlnumEncode, State.ifPhase, phaseOk, if_true, alnumBody_done (firstInvalid_of_valid hv) hn, finish_done]

theorem exec_frame_fits {s : State} (hp : s.phase = .encoded) (hn : s.nLatch.toNat ≤ 10) : exec .frame s = .next { s with
      cw := Vector.ofFn fun k => if k.val < 9 then streamCodeword (frameStream s.nLatch.toNat s.bitString) k.val else s.cw[k.val]
      phase := .framed, err := .none, errInfo := 0#32, busy := false, stage := 0#3 } := by
  simp only [exec, execFrame, State.ifPhase, phaseOk, hp, decide_true, if_true, frameBody_done hn, finish_done]

/-- The nine codewords stages 1 and 2 leave for the collaborator. -/
theorem encodeFront_dataCodewords {s : State} (hv : s.ValidInput) (hn : s.inLen.toNat ≤ 10) : ∃ u, encodeFront s = .done u ∧
    u.dataCodewords = framedCodewords s.inLen.toNat (alnum s.inputString) := by
  refine ⟨_, encodeFront_done hv hn, ?_⟩
  unfold framedCodewords
  apply dataCodewords_of_framed s.cw
  exact rfl

theorem exec_encode_request {s : State} (hv : s.ValidInput) (hn : s.inLen.toNat ≤ 10) (hr : s.rsPort = none) :
    exec .encode s = .next { s with rsPort := some ⟨framedCodewords s.inLen.toNat (alnum s.inputString), 17⟩, stage := 3#3 } := by
  obtain ⟨u, h1, h2⟩ := encodeFront_dataCodewords hv hn
  simp only [exec, execEncode, State.ifPhase, phaseOk, if_true, h1, hr, State.sendRequest, h2, Config.nec]

theorem exec_encode_answered {s : State} {req : RsRequest} {seq : List Codeword} (hv : s.ValidInput) (hn : s.inLen.toNat ≤ 10)
    (hr : s.rsPort = some req) (ha : s.rsAnswer req.data = .ok seq) (hl : seq.length = 26) :
    ∃ cs : Vector Codeword 26, cs.toList = seq ∧ exec .encode s = .next { s with
        bitStr := packBits (alnum s.inputString)
        bitLen := BitVec.ofNat 6 (alnum s.inputString).length
        nLatch := s.inLen, cw := cs, fmt := 0x19D0#15, fmtValid := true,
        matrix := embedFormat 0x19D0#15 ((placeWalk cs s.matrix).matrix.mapCells maskCell)
        zig := { rc := 1#5, row := 20#5, dir := .down, sub := .right, ended := true }
        bidx := 208#8, phase := .embedded, rsPort := none,
        err := .none, errInfo := 0#32, busy := false, stage := 0#3 } := by
  have hf := encodeFront_done hv hn
  generalize hu : ({ s with
      bitStr := packBits (alnum s.inputString)
      bitLen := BitVec.ofNat 6 (alnum s.inputString).length
      nLatch := s.inLen
      cw := Vector.ofFn fun k => if k.val < 9 then
        streamCodeword (frameStream s.inLen.toNat (alnum s.inputString)) k.val else s.cw[k.val]
      phase := .framed } : State) = u at hf
  obtain ⟨cs, h1, h2⟩ := augmentBody_done hl u
  refine ⟨cs, h1, ?_⟩
  simp only [exec, execEncode, State.ifPhase, phaseOk, if_true, hf, hr, ha, encodeBack_done h2, finish_done]
  subst hu; rfl

theorem exec_ecAugment_request {s : State} (hp : s.phase = .framed) (hr : s.rsPort = none) : exec .ecAugment s = .next (s.sendRequest s.dataCodewords) := by
  simp only [exec, execEcAugment, State.ifPhase, phaseOk, hp, decide_true, if_true, hr]

theorem exec_ecAugment_answered {s : State} {req : RsRequest} {seq : List Codeword} (hp : s.phase = .framed) (hr : s.rsPort = some req) (ha : s.rsAnswer req.data = .ok seq) (cs : Vector Codeword 26) (hl : cs.toList = seq) : exec .ecAugment s = .next { s with
          cw := cs, phase := .augmented, err := .none, errInfo := 0#32, rsPort := none,
          busy := false, stage := 0#3 } := by
  have hl' : seq.length = 26 := by rw [← hl]; simp
  obtain ⟨cs', h1, h2⟩ := augmentBody_done hl' s
  have : cs' = cs := by apply Vector.toList_inj.mp; rw [h1, hl]
  subst this
  simp only [exec, execEcAugment, State.ifPhase, phaseOk, hp, decide_true, if_true, hr, ha, h2, finish_done]

theorem exec_place_augmented {s : State} (hp : s.phase = .augmented) : exec .place s = .next { s with
    matrix := (placeWalk s.cw s.matrix).matrix
    zig := { rc := 1#5, row := 20#5, dir := .down, sub := .right, ended := true }
    bidx := 208#8, phase := .placed, err := .none, errInfo := 0#32, busy := false, stage := 0#3 } := by
  simp only [exec, execPlace, State.ifPhase, phaseOk, hp, decide_true, if_true, placeBody_eq, finish_done]

theorem exec_formatEmbed_masked {s : State} (hp : s.phase = .masked) (hf : s.fmtValid = true) : exec .formatEmbed s = .next { s with
    matrix := embedFormat s.fmt s.matrix, phase := .embedded, err := .none, errInfo := 0#32, busy := false, stage := 0#3 } := by
  simp only [exec, execFormatEmbed, State.ifPhase, phaseOk, hp, hf, and_self, decide_true, if_true, embedBody, finish_done]

theorem exec_mask_placed {s : State} (h : s.phase = .placed ∨ s.phase = .masked) : exec .mask s = .next { s with
        matrix := s.matrix.mapCells maskCell, phase := if s.phase = .placed then .masked else .placed,
        err := .none, errInfo := 0#32, busy := false, stage := 0#3 } := by
  have : phaseOk .mask s = true := by simpa [phaseOk] using h
  simp only [exec, execMask, ifPhase_of_ok _ this, maskBody, finish_done]

/-! ### Every outcome -/

/-- After a stage error: PHASE, ERR, ERR_INFO and the port (60_exceptions.md R202). -/
def afterStageError (s : State) (e : ErrCode) (info : Word) : State := { s with phase := .idle, err := e, errInfo := info, rsPort := none, busy := false, stage := 0#3 }

/-- What stages 1 and 2 have written (47_pipeline_control.md R181). -/
def afterFront (s : State) (c' : Vector Codeword 26) : State := { s with
      bitStr := packBits (alnum s.inputString)
      bitLen := BitVec.ofNat 6 (alnum s.inputString).length
      nLatch := s.inLen
      cw := c' }

/-- After an ENCODE that the collaborator answered with 26 codewords (R181). -/
def afterEncode (s : State) (cs : Vector Codeword 26) : State := { s with
        bitStr := packBits (alnum s.inputString)
        bitLen := BitVec.ofNat 6 (alnum s.inputString).length
        nLatch := s.inLen, cw := cs, fmt := 0x19D0#15, fmtValid := true,
        matrix := embedFormat 0x19D0#15 ((placeWalk cs s.matrix).matrix.mapCells maskCell)
        zig := { rc := 1#5, row := 20#5, dir := .down, sub := .right, ended := true }
        bidx := 208#8, phase := .embedded, rsPort := none,
        err := .none, errInfo := 0#32, busy := false, stage := 0#3 }

/-- After FRAME (41_codeword_framer.md R111). -/
def afterFrame (s : State) : State := { s with
        cw := Vector.ofFn fun k => if k.val < 9 then streamCodeword (frameStream s.nLatch.toNat s.bitString) k.val else s.cw[k.val]
        phase := .framed, err := .none, errInfo := 0#32, busy := false, stage := 0#3 }

/-- Every way a command's move can end. -/
def CommandEffect (i : Instr) (s t : State) : Prop :=
  (phaseOk i s = false ∧ t = { s with err := .sequenceError, errInfo := s.cmdLatch, busy := false, stage := 0#3 }) ∨
  (∃ e info, e.isStageError = true ∧ t = afterStageError s e info) ∨
  (i = .alnumEncode ∧ s.ValidInput ∧ s.inLen.toNat ≤ 10 ∧ t = { afterFront s s.cw with phase := .encoded, err := .none, errInfo := 0#32, busy := false, stage := 0#3 }) ∨
  (i = .frame ∧ s.phase = .encoded ∧ t = afterFrame s) ∨
  (i = .ecAugment ∧ s.phase = .framed ∧ s.rsPort = none ∧ t = { s with rsPort := some ⟨s.dataCodewords, 17⟩ }) ∨
  (i = .ecAugment ∧ s.phase = .framed ∧ ∃ req cs, s.rsPort = some req ∧ s.rsAnswer req.data = .ok (Vector.toList cs) ∧ t = { s with
          cw := cs, phase := .augmented, err := .none, errInfo := 0#32, rsPort := none, busy := false, stage := 0#3 }) ∨
  (i = .formatBuild ∧ t = { s with fmt := 0x19D0#15, fmtValid := true, err := .none, errInfo := 0#32, busy := false, stage := 0#3 }) ∨
  (i = .place ∧ s.phase = .augmented ∧ t = { s with
    matrix := (placeWalk s.cw s.matrix).matrix
    zig := { rc := 1#5, row := 20#5, dir := .down, sub := .right, ended := true }
    bidx := 208#8, phase := .placed, err := .none, errInfo := 0#32, busy := false, stage := 0#3 }) ∨
  (i = .mask ∧ (s.phase = .placed ∨ s.phase = .masked) ∧ t = { s with
        matrix := s.matrix.mapCells maskCell, phase := if s.phase = .placed then .masked else .placed,
        err := .none, errInfo := 0#32, busy := false, stage := 0#3 }) ∨
  (i = .formatEmbed ∧ s.phase = .masked ∧ s.fmtValid = true ∧ t = { s with
    matrix := embedFormat s.fmt s.matrix, phase := .embedded, err := .none, errInfo := 0#32, busy := false, stage := 0#3 }) ∨
  (i = .encode ∧ s.ValidInput ∧ s.inLen.toNat ≤ 10 ∧ s.rsPort = none ∧
    t = { s with rsPort := some ⟨framedCodewords s.inLen.toNat (alnum s.inputString), 17⟩, stage := 3#3 }) ∨
  (i = .encode ∧ s.ValidInput ∧ s.inLen.toNat ≤ 10 ∧ ∃ req cs, s.rsPort = some req ∧ s.rsAnswer req.data = .ok (Vector.toList cs) ∧ t = afterEncode s cs) ∨
  (i = .encode ∧ s.ValidInput ∧ s.inLen.toNat ≤ 10 ∧ ∃ e info c', e.isStageError = true ∧ t = afterStageError (afterFront s c') e info) ∨
  (∃ d, i = .bchRem d ∧ t = { s with bchResult := bchrem d, err := .none, errInfo := 0#32, busy := false, stage := 0#3 }) ∨
  (i = .clear ∧ t = (clearState s).succeed)

theorem validInput_or_firstInvalid (s : State) : s.ValidInput ∨ ∃ i, firstInvalid s.inputString = some i := by
  cases h : firstInvalid s.inputString with
  | none => exact .inl ((validInput_iff s).mpr ((firstInvalid_eq_none_iff _).mp h))
  | some i => exact .inr ⟨i, rfl⟩

/-- A command that answers a next state answers one of these, guards included. -/
theorem exec_next_cases {i : Instr} {s t : State} (h : exec i s = .next t) (h1 : ∀ a, i ≠ .rd a) (h2 : ∀ a v, i ≠ .wr a v) : CommandEffect i s t := by
  cases i with
  | alnumEncode =>
    rcases validInput_or_firstInvalid s with hv | ⟨j, hj⟩
    · by_cases hn : s.inLen.toNat ≤ 10
      · rw [exec_alnumEncode_valid hv hn] at h; cases h
        exact .inr (.inr (.inl ⟨rfl, hv, hn, rfl⟩))
      · simp only [exec, execAlnumEncode, State.ifPhase, phaseOk, if_true, alnumBody_capacity (firstInvalid_of_valid hv) (by omega : 10 < s.inLen.toNat), finish_error (rfl : ErrCode.capacityExceeded.isStageError = true)] at h
        cases h
        exact .inr (.inl ⟨.capacityExceeded, _, rfl, rfl⟩)
    · simp only [exec, execAlnumEncode, State.ifPhase, phaseOk, if_true, alnumBody_invalid hj, finish_error (rfl : ErrCode.invalidCharacter.isStageError = true)] at h
      cases h
      exact .inr (.inl ⟨.invalidCharacter, _, rfl, rfl⟩)
  | frame =>
    by_cases hp : phaseOk .frame s = true
    · have hp' : s.phase = .encoded := by simpa [phaseOk] using hp
      by_cases hn : s.nLatch.toNat ≤ 10
      · rw [exec_frame_fits hp' hn] at h; cases h
        exact .inr (.inr (.inr (.inl ⟨rfl, hp', rfl⟩)))
      · simp only [exec, execFrame, ifPhase_of_ok _ hp, frameBody_error (by omega : 10 < s.nLatch.toNat), finish_error (rfl : ErrCode.capacityExceeded.isStageError = true)] at h
        cases h
        exact .inr (.inl ⟨.capacityExceeded, _, rfl, rfl⟩)
    · have hp : phaseOk .frame s = false := by simpa using hp
      simp only [exec, execFrame, ifPhase_of_not _ hp] at h
      cases h; exact .inl ⟨hp, rfl⟩
  | ecAugment =>
    by_cases hp : phaseOk .ecAugment s = true
    · have hp' : s.phase = .framed := by simpa [phaseOk] using hp
      cases hr : s.rsPort with
      | none =>
        rw [exec_ecAugment_request hp' hr] at h; cases h
        exact .inr (.inr (.inr (.inr (.inl ⟨rfl, hp', hr, rfl⟩))))
      | some req =>
        cases ha : s.rsAnswer req.data with
        | fail e =>
          simp only [exec, execEcAugment, ifPhase_of_ok _ hp, hr, ha, augmentBody_fail, finish_error (rfl : ErrCode.rsFailure.isStageError = true)] at h
          cases h
          exact .inr (.inl ⟨.rsFailure, _, rfl, rfl⟩)
        | ok seq =>
          by_cases hl : seq.length = 26
          · obtain ⟨cs, rfl⟩ : ∃ cs : Vector Codeword 26, cs.toList = seq := ⟨⟨seq.toArray, by simp [hl]⟩, by simp⟩
            rw [exec_ecAugment_answered hp' hr ha cs rfl] at h; cases h
            exact .inr (.inr (.inr (.inr (.inr (.inl ⟨rfl, hp', req, cs, hr, ha, rfl⟩)))))
          · simp only [exec, execEcAugment, ifPhase_of_ok _ hp, hr, ha, augmentBody_mismatch hl, finish_error (rfl : ErrCode.layoutMismatch.isStageError = true)] at h
            cases h
            exact .inr (.inl ⟨.layoutMismatch, _, rfl, rfl⟩)
    · have hp : phaseOk .ecAugment s = false := by simpa using hp
      simp only [exec, execEcAugment, ifPhase_of_not _ hp] at h
      cases h; exact .inl ⟨hp, rfl⟩
  | formatBuild =>
    simp only [exec, execFormatBuild, ifPhase_of_ok _ (rfl : phaseOk .formatBuild s = true), formatBuildBody_eq, finish_done] at h; cases h
    exact .inr (.inr (.inr (.inr (.inr (.inr (.inl ⟨rfl, rfl⟩))))))
  | place =>
    by_cases hp : phaseOk .place s = true
    · have hp' : s.phase = .augmented := by simpa [phaseOk] using hp
      rw [exec_place_augmented hp'] at h; cases h
      exact .inr (.inr (.inr (.inr (.inr (.inr (.inr (.inl ⟨rfl, hp', rfl⟩)))))))
    · have hp : phaseOk .place s = false := by simpa using hp
      simp only [exec, execPlace, ifPhase_of_not _ hp] at h
      cases h; exact .inl ⟨hp, rfl⟩
  | mask =>
    by_cases hp : phaseOk .mask s = true
    · have hp' : s.phase = .placed ∨ s.phase = .masked := by simpa [phaseOk] using hp
      rw [exec_mask_placed hp'] at h; cases h
      exact .inr (.inr (.inr (.inr (.inr (.inr (.inr (.inr (.inl ⟨rfl, hp', rfl⟩))))))))
    · have hp : phaseOk .mask s = false := by simpa using hp
      simp only [exec, execMask, ifPhase_of_not _ hp] at h
      cases h; exact .inl ⟨hp, rfl⟩
  | formatEmbed =>
    by_cases hp : phaseOk .formatEmbed s = true
    · have hp' : s.phase = .masked ∧ s.fmtValid = true := by simpa [phaseOk] using hp
      rw [exec_formatEmbed_masked hp'.1 hp'.2] at h; cases h
      exact .inr (.inr (.inr (.inr (.inr (.inr (.inr (.inr (.inr (.inl ⟨rfl, hp'.1, hp'.2, rfl⟩)))))))))
    · have hp : phaseOk .formatEmbed s = false := by simpa using hp
      simp only [exec, execFormatEmbed, ifPhase_of_not _ hp] at h
      cases h; exact .inl ⟨hp, rfl⟩
  | encode =>
    rcases validInput_or_firstInvalid s with hv | ⟨j, hj⟩
    · by_cases hn : s.inLen.toNat ≤ 10
      · cases hr : s.rsPort with
        | none =>
          rw [exec_encode_request hv hn hr] at h; cases h
          exact .inr (.inr (.inr (.inr (.inr (.inr (.inr (.inr (.inr (.inr (.inl ⟨rfl, hv, hn, hr, rfl⟩))))))))))
        | some req =>
          cases ha : s.rsAnswer req.data with
          | fail e =>
            simp only [exec, execEncode, State.ifPhase, phaseOk, if_true, encodeFront_done hv hn, hr, ha, encodeBack_error (augmentBody_fail _ _), finish_error (rfl : ErrCode.rsFailure.isStageError = true)] at h
            cases h
            exact .inr (.inr (.inr (.inr (.inr (.inr (.inr (.inr (.inr (.inr (.inr (.inr (.inl ⟨rfl, hv, hn, .rsFailure, _, _, rfl, rfl⟩))))))))))))
          | ok seq =>
            by_cases hl : seq.length = 26
            · obtain ⟨cs, h1, h2⟩ := exec_encode_answered hv hn hr ha hl
              subst h1
              rw [h2] at h; cases h
              exact .inr (.inr (.inr (.inr (.inr (.inr (.inr (.inr (.inr (.inr (.inr (.inl ⟨rfl, hv, hn, req, cs, hr, ha, rfl⟩)))))))))))
            · simp only [exec, execEncode, State.ifPhase, phaseOk, if_true, encodeFront_done hv hn, hr, ha, encodeBack_error (augmentBody_mismatch hl _), finish_error (rfl : ErrCode.layoutMismatch.isStageError = true)] at h
              cases h
              exact .inr (.inr (.inr (.inr (.inr (.inr (.inr (.inr (.inr (.inr (.inr (.inr (.inl ⟨rfl, hv, hn, .layoutMismatch, _, _, rfl, rfl⟩))))))))))))
      · simp only [exec, execEncode, State.ifPhase, phaseOk, if_true, encodeFront_capacity hv (by omega : 10 < s.inLen.toNat), raise_stage (rfl : ErrCode.capacityExceeded.isStageError = true)] at h
        cases h
        exact .inr (.inl ⟨.capacityExceeded, _, rfl, rfl⟩)
    · simp only [exec, execEncode, State.ifPhase, phaseOk, if_true, encodeFront_invalid hj, raise_stage (rfl : ErrCode.invalidCharacter.isStageError = true)] at h
      cases h
      exact .inr (.inl ⟨.invalidCharacter, _, rfl, rfl⟩)
  | bchRem d =>
    cases h
    exact .inr (.inr (.inr (.inr (.inr (.inr (.inr (.inr (.inr (.inr (.inr (.inr (.inr (.inl ⟨d, rfl, rfl⟩)))))))))))))
  | clear =>
    cases h
    exact .inr (.inr (.inr (.inr (.inr (.inr (.inr (.inr (.inr (.inr (.inr (.inr (.inr (.inr ⟨rfl, rfl⟩)))))))))))))
  | rd a => exact absurd rfl (h1 a)
  | wr a v => exact absurd rfl (h2 a v)

end Sys2Proof.Machine
end

