-- ==== Sys2Proof/Laws/PerInstr.lean ====
section
/-! SUPPORT. Facts of every instruction as syntax, one lemma per constructor. -/

namespace Sys2Proof.Laws.EncodedFields

/-- An instruction's command word, if it has one, passes the three checks of decode (30_encoding.md R72). -/
def Statement (i : Instr) : Prop := ∀ w, encode i = some w → (fieldsOf w).wellFormed = true

theorem alnumEncode : Statement .alnumEncode := by intro w h; cases h; decide
theorem frame : Statement .frame := by intro w h; cases h; decide
theorem ecAugment : Statement .ecAugment := by intro w h; cases h; decide
theorem formatBuild : Statement .formatBuild := by intro w h; cases h; decide
theorem place : Statement .place := by intro w h; cases h; decide
theorem mask : Statement .mask := by intro w h; cases h; decide
theorem formatEmbed : Statement .formatEmbed := by intro w h; cases h; decide
theorem encode : Statement .encode := by intro w h; cases h; decide
theorem bchRem (d : BitVec 15) : Statement (.bchRem d) := by
  intro w h; cases h
  simp [CmdFields.wellFormed, CmdFields.opcodeOk, CmdFields.reservedOk, CmdFields.operandOk]
theorem clear : Statement .clear := by intro w h; cases h; decide
theorem rd (a : Addr) : Statement (.rd a) := by intro w h; cases h
theorem wr (a : Addr) (v : Word) : Statement (.wr a v) := by intro w h; cases h

end Sys2Proof.Laws.EncodedFields
end

