-- ==== Sys2Proof/Tests/Slice0.lean ====
section
/-! SUPPORT. The model's own tests. Every expected value is the spec's: its encoding tables (30_encoding.md), its template
table (44_matrix_placer.md R140), its test vectors (95_test_vectors.md, sets ALN, FRM, RSP, BCH, FMT, ZZ, PLC, MSK, EMB,
CMD, HOST, program P1). A `witness_X` shows that the hypotheses of `Obligations.X` can be met together. -/

namespace Sys2Proof.Tests

open Sys2Proof.Machine

set_option Elab.async false

/-! ### Helpers -/

/-- The reset state with its draws replaced by zeros, for tests that look at concrete values. -/
def blank : State := { State.reset with
  inChar := Vector.replicate 255 0#8
  matrix := Vector.replicate 21 (Vector.replicate 21 { filled := false, val := false })
  draws := 0 }

/-- `blank` with an input string. -/
def withInput (str : List Nat) : State := { blank with
  inLen := BitVec.ofNat 8 str.length
  inChar := Vector.ofFn fun i => BitVec.ofNat 8 (str.getD i.val 0) }

/-- A codeword file from its first codewords, 0 after them. -/
def codewords (l : List Nat) : Vector Codeword 26 := Vector.ofFn fun k => BitVec.ofNat 8 (l.getD k.val 0)

/-- A matrix from its rows: values, and which cells are filled. -/
def matrixOf (value defined : List Nat) : SymbolMatrix :=
  Vector.ofFn fun r => Vector.ofFn fun c =>
    { filled := (defined.getD r.val 0).testBit c.val, val := (value.getD r.val 0).testBit c.val }

/-- Values of filled cells only, as the spec prints them. -/
def rowValues (m : SymbolMatrix) : List Nat := (List.range 21).map fun r => (rowWord m r 0#32).toNat

/-- Does the outcome answer a state with this property? -/
def answers (o : Host.Outcome State Fault Refusal) (p : State → Bool) : Bool :=
  match o with
  | .next t => p t
  | .fault _ => false
  | .refused _ => false

def isViolation (o : Host.Outcome State Fault Refusal) : Bool :=
  match o with
  | .next _ => false
  | .fault .hostViolation => true
  | .refused _ => false

/-- "ABCDE123" (program P1). -/
def abcde123 : List Nat := [0x41, 0x42, 0x43, 0x44, 0x45, 0x31, 0x32, 0x33]

/-- CW[0..8] of "ABCDE123" (set FRM). -/
def abcdeData : List Nat := [0x20, 0x41, 0xCD, 0x45, 0x29, 0xDC, 0x2E, 0x80, 0xEC]

/-- The same as a request. -/
def abcdeRequest : RsRequest := { data := Vector.ofFn fun k => BitVec.ofNat 8 (abcdeData.getD k.val 0), ecLen := 17 }

/-- A collaborator table with one answer to that request. -/
def answering (a : RsAnswer) : List (Vector Codeword 9 × RsAnswer) := [(abcdeRequest.data, a)]

/-- The answer ZRS: the data, then 17 zeros. -/
def zrs : RsAnswer := .ok (codewords abcdeData).toList

/-- The matrix after PLACE, values and filled cells (set PLC). -/
def plcValue : List Nat :=
  [0x1FC07F, 0x104041, 0x17405D, 0x17405D, 0x17405D, 0x104041, 0x1FD57F] ++
  [0x000000, 0x000040, 0x0A0000, 0x198040, 0x030000, 0x1B8040, 0x080100] ++
  [0x04007F, 0x040041, 0x0B005D, 0x07005D, 0x03805D, 0x170041, 0x00007F]

def plcDefined : List Nat :=
  [0x1FFEFF, 0x1FFEFF, 0x1FFEFF, 0x1FFEFF, 0x1FFEFF, 0x1FFEFF, 0x1FFFFF] ++
  [0x1FFEFF, 0x001E40, 0x1FFFFF, 0x1FFFFF, 0x1FFFFF, 0x1FFFFF, 0x1FFFFF] ++
  [0x1FFEFF, 0x1FFEFF, 0x1FFEFF, 0x1FFEFF, 0x1FFEFF, 0x1FFEFF, 0x1FFEFF]

/-- The values after MASK (set MSK). -/
def mskValue : List Nat :=
  [0x1FD27F, 0x104841, 0x17445D, 0x17525D, 0x17485D, 0x104441, 0x1FD57F] ++
  [0x000800, 0x000440, 0x0E9209, 0x0BC964, 0x0A2492, 0x1F1249, 0x1A4900] ++
  [0x0D247F, 0x009241, 0x19485D, 0x0E245D, 0x07125D, 0x054841, 0x09247F]

/-- The finished symbol (program P1). -/
def p1Value : List Nat :=
  [0x1FD27F, 0x104841, 0x17445D, 0x17525D, 0x17495D, 0x104441, 0x1FD57F] ++
  [0x000900, 0x0165CC, 0x0E9209, 0x0BC964, 0x0A2492, 0x1F1249, 0x1A4900] ++
  [0x0D257F, 0x009241, 0x19485D, 0x0E255D, 0x07135D, 0x054841, 0x09247F]

/-- Every cell filled. -/
def allDefined : List Nat := List.replicate 21 0x1FFFFF

/-! ### Well-formedness: one ill-formed word for each check -/

/-- The opcode check refuses 0x0B. -/
theorem test_illformed_opcode : ({ op := 0x0B#8, opnd := 0#15, rsv := 0#9 } : CmdFields).opcodeOk = false ∧
    ({ op := 0x0B#8, opnd := 0#15, rsv := 0#9 } : CmdFields).wellFormed = false := by decide

/-- The reserved-bits check refuses bit 23. -/
theorem test_illformed_reserved : ({ op := 0x09#8, opnd := 0#15, rsv := 1#9 } : CmdFields).reservedOk = false ∧
    ({ op := 0x09#8, opnd := 0#15, rsv := 1#9 } : CmdFields).wellFormed = false := by decide

/-- The operand check refuses ENCODE with OPND = 1. -/
theorem test_illformed_operand : ({ op := 0x08#8, opnd := 1#15, rsv := 0#9 } : CmdFields).operandOk = false ∧
    ({ op := 0x08#8, opnd := 1#15, rsv := 0#9 } : CmdFields).wellFormed = false := by decide

/-- A command is well formed: BCH_REM with the largest dividend. -/
theorem test_wellformed_bchrem : ({ op := 0x09#8, opnd := 0x7FFF#15, rsv := 0#9 } : CmdFields).wellFormed = true := by decide

/-! ### Decoding: every command's word, from the table of R71, and the refusals of R72 -/

theorem test_decode_alnum_encode : decode 0x00000001#32 = .ok .alnumEncode := by decide
theorem test_decode_frame : decode 0x00000002#32 = .ok .frame := by decide
theorem test_decode_ec_augment : decode 0x00000003#32 = .ok .ecAugment := by decide
theorem test_decode_format_build : decode 0x00000004#32 = .ok .formatBuild := by decide
theorem test_decode_place : decode 0x00000005#32 = .ok .place := by decide
theorem test_decode_mask : decode 0x00000006#32 = .ok .mask := by decide
theorem test_decode_format_embed : decode 0x00000007#32 = .ok .formatEmbed := by decide
theorem test_decode_encode : decode 0x00000008#32 = .ok .encode := by decide
theorem test_decode_clear : decode 0x0000000A#32 = .ok .clear := by decide

/-- Set BCH: the word of dividend 0x4C00, and RSV, OPND and OP bit by bit. -/
theorem test_decode_bch_rem : decode 0x004C0009#32 = .ok (.bchRem 0x4C00#15) ∧
    decode 0b000000000_010110000000001_00001001#32 = .ok (.bchRem 0b010110000000001#15) := by decide

/-- RD and WR have no word: their encoding is the bus operation itself. -/
theorem test_no_word_is_a_bus_operation : encode (.rd 0x001#12) = none ∧ encode (.wr 0x003#12 8#32) = none := by decide

theorem test_refused_words : decode 0x00000000#32 = .error (.reservedOpcode 0x00#8) ∧
    decode 0x000000FF#32 = .error (.reservedOpcode 0xFF#8) ∧ decode 0x80000002#32 = .error (.reservedBits 0x100#9) ∧
    decode 0x00000108#32 = .error (.operandNotZero 1#15) := by decide

/-- The host's interface: the table's word, laid out for the decoder and for the step. -/
theorem test_table_word : decodeTableWord 32 0x004C0009 = some (.bchRem 0x4C00#15) ∧
    answers (step (State.reset.withFetchWord 32 0x004C0009)) (fun t => decide (t.bchResult = 0x1C2#10)) = true := by
  decide +kernel

/-! ### ALNUM_ENCODE (set ALN) -/

theorem test_alnum_encode_longest :
    answers (exec .alnumEncode (withInput [0x41, 0x42, 0x43, 0x44, 0x45, 0x31, 0x32, 0x33, 0x34, 0x35])) (fun t =>
      decide (t.bitLen = 55#6 ∧ t.bitStr = #v[0x39A8A53B#32, 0x85D17200#32] ∧ t.nLatch = 10#8 ∧ t.status = 0x10#32)) = true := by
  decide +kernel

theorem test_alnum_encode_checks_characters_first :
    answers (exec .alnumEncode
      (withInput [0x41, 0x42, 0x43, 0x44, 0x45, 0x46, 0x47, 0x48, 0x49, 0x4A, 0x23])) (fun t =>
      decide (t.status = 0x02#32 ∧ t.errInfo = 10#32 ∧ t.bitLen = 0#6)) = true := by
  decide +kernel

/-! ### FRAME (set FRM) -/

def encodedState : State := { blank with
  phase := .encoded, bitLen := 44#6, bitStr := #v[0x39A8A53B#32, 0x85D00000#32], nLatch := 8#8, cw := codewords (List.replicate 26 0x77) }

theorem test_frame_abcde123 : answers (exec .frame encodedState) (fun t =>
    decide (t.cw = codewords (abcdeData ++ List.replicate 17 0x77) ∧ t.status = 0x20#32)) = true := by
  decide +kernel

theorem test_frame_empty : answers (exec .frame { encodedState with bitLen := 0#6, bitStr := #v[0#32, 0#32], nLatch := 0#8 }) (fun t =>
    decide (t.cw.toList.take 9 = [0x20#8, 0x00#8, 0x00#8, 0xEC#8, 0x11#8, 0xEC#8, 0x11#8, 0xEC#8, 0x11#8])) = true := by
  decide +kernel

/-! ### EC_AUGMENT (set RSP) -/

def waitingState (a : RsAnswer) : State := { blank with
  phase := .framed, cw := codewords abcdeData, busy := true, cmdLatch := 3#32,
  rsPort := some abcdeRequest, rsTable := answering a }

theorem test_ec_augment_stores_as_returned :
    answers (exec .ecAugment (waitingState (.ok (List.replicate 26 0xFF#8)))) (fun t =>
      decide (t.cw = codewords (List.replicate 26 0xFF) ∧ t.status = 0x30#32)) = true := by
  decide +kernel

theorem test_ec_augment_wrong_length :
    answers (exec .ecAugment (waitingState (.ok (List.replicate 25 0xFF#8)))) (fun t =>
      decide (t.cw = codewords abcdeData ∧ t.status = 0x06#32 ∧ t.errInfo = 200#32 ∧ t.rsPort = none)) = true := by
  decide +kernel

/-! ### FORMAT_BUILD and BCH_REM (sets FMT and BCH) -/

theorem test_format_build_keeps_phase : answers (exec .formatBuild { blank with phase := .placed, err := .sequenceError })
    (fun t => decide (t.fmt = 0x19D0#15 ∧ t.status = 0xC0#32)) = true := by decide +kernel

theorem test_bch_rem_payload : answers (exec (.bchRem 0x4C00#15) blank) (fun t => decide (t.bchResult = 0x1C2#10)) = true := by
  decide +kernel

/-- The dividend on which the source's literal loop differs (C5). -/
theorem test_bch_rem_is_polynomial_division :
    answers (exec (.bchRem 0x0400#15) blank) (fun t => decide (t.bchResult = 0x137#10)) = true := by decide +kernel

/-! ### The template, the traversal and PLACE (R140, sets ZZ and PLC) -/

/-- A row of the printed table: D is 1, L is 2, F is 3, S is 4. -/
def tagRow (r : Nat) : Nat := (List.range 21).foldl (fun n c => 10 * n + (match tag r c with
  | .dark => 1 | .light => 2 | .formatReserved => 3 | .dataSlot => 4)) 0

theorem test_template_is_the_printed_table : (List.range 21).map tagRow =
  [111111123444421111111, 122222123444421222221, 121112123444421211121] ++
  [121112123444421211121, 121112123444421211121, 122222123444421222221] ++
  [111111121212121111111, 222222223444422222222, 333333133444433333333] ++
  [444444244444444444444, 444444144444444444444, 444444244444444444444] ++
  [444444144444444444444, 222222221444444444444, 111111123444444444444] ++
  [122222123444444444444, 121112123444444444444, 121112123444444444444] ++
  [121112123444444444444, 122222123444444444444, 111111123444444444444] := by decide +kernel

theorem test_visit_order_is_the_printed_one : visitOrder =
  [(20, 20), (20, 19), (19, 20), (19, 19), (18, 20), (18, 19), (17, 20), (17, 19), (16, 20), (16, 19), (15, 20), (15, 19), (14, 20), (14, 19), (13, 20), (13, 19)] ++
  [(12, 20), (12, 19), (11, 20), (11, 19), (10, 20), (10, 19), (9, 20), (9, 19), (9, 18), (9, 17), (10, 18), (10, 17), (11, 18), (11, 17), (12, 18), (12, 17)] ++
  [(13, 18), (13, 17), (14, 18), (14, 17), (15, 18), (15, 17), (16, 18), (16, 17), (17, 18), (17, 17), (18, 18), (18, 17), (19, 18), (19, 17), (20, 18), (20, 17)] ++
  [(20, 16), (20, 15), (19, 16), (19, 15), (18, 16), (18, 15), (17, 16), (17, 15), (16, 16), (16, 15), (15, 16), (15, 15), (14, 16), (14, 15), (13, 16), (13, 15)] ++
  [(12, 16), (12, 15), (11, 16), (11, 15), (10, 16), (10, 15), (9, 16), (9, 15), (9, 14), (9, 13), (10, 14), (10, 13), (11, 14), (11, 13), (12, 14), (12, 13)] ++
  [(13, 14), (13, 13), (14, 14), (14, 13), (15, 14), (15, 13), (16, 14), (16, 13), (17, 14), (17, 13), (18, 14), (18, 13), (19, 14), (19, 13), (20, 14), (20, 13)] ++
  [(20, 12), (20, 11), (19, 12), (19, 11), (18, 12), (18, 11), (17, 12), (17, 11), (16, 12), (16, 11), (15, 12), (15, 11), (14, 12), (14, 11), (13, 12), (13, 11)] ++
  [(12, 12), (12, 11), (11, 12), (11, 11), (10, 12), (10, 11), (9, 12), (9, 11), (8, 12), (8, 11), (7, 12), (7, 11), (5, 12), (5, 11), (4, 12), (4, 11)] ++
  [(3, 12), (3, 11), (2, 12), (2, 11), (1, 12), (1, 11), (0, 12), (0, 11), (0, 10), (0, 9), (1, 10), (1, 9), (2, 10), (2, 9), (3, 10), (3, 9)] ++
  [(4, 10), (4, 9), (5, 10), (5, 9), (7, 10), (7, 9), (8, 10), (8, 9), (9, 10), (9, 9), (10, 10), (10, 9), (11, 10), (11, 9), (12, 10), (12, 9)] ++
  [(13, 10), (13, 9), (14, 10), (14, 9), (15, 10), (15, 9), (16, 10), (16, 9), (17, 10), (17, 9), (18, 10), (18, 9), (19, 10), (19, 9), (20, 10), (20, 9)] ++
  [(12, 8), (12, 7), (11, 8), (11, 7), (10, 8), (10, 7), (9, 8), (9, 7), (9, 5), (9, 4), (10, 5), (10, 4), (11, 5), (11, 4), (12, 5), (12, 4)] ++
  [(12, 3), (12, 2), (11, 3), (11, 2), (10, 3), (10, 2), (9, 3), (9, 2), (9, 1), (9, 0), (10, 1), (10, 0), (11, 1), (11, 0), (12, 1), (12, 0)] := by decide +kernel

def zigzag (rc row : Nat) (dir : Dir) (sub : Sub) : ZigZag :=
  { rc := BitVec.ofNat 5 rc, row := BitVec.ofNat 5 row, dir := dir, sub := sub, ended := false }

theorem test_zigzag_steps :
    (zigzag 20 20 .up .right).step = zigzag 20 20 .up .left ∧ (zigzag 20 20 .up .left).step = zigzag 20 19 .up .right ∧
    (zigzag 20 0 .up .left).step = zigzag 18 0 .down .right ∧ (zigzag 18 20 .down .left).step = zigzag 16 20 .up .right ∧
    (zigzag 8 0 .up .left).step = zigzag 5 0 .down .right ∧ (zigzag 1 20 .down .left).step.ended = true := by decide

def augmentedState : State := { blank with phase := .augmented, cw := codewords abcdeData }

theorem test_place : answers (exec .place augmentedState) (fun t =>
    decide (t.matrix = matrixOf plcValue plcDefined ∧ t.status = 0x40#32 ∧ t.bidx = 208#8)) = true := by
  decide +kernel

/-! ### MASK (set MSK) -/

def placedState : State := { augmentedState with phase := .placed, matrix := matrixOf plcValue plcDefined }

theorem test_flip_set : (allCells.filter fun p => inFlip p.1 p.2) =
  [(0, 9), (0, 12), (1, 11), (2, 10), (3, 9), (3, 12), (4, 11), (5, 10), (7, 11), (8, 10), (9, 0), (9, 3), (9, 9), (9, 12), (9, 15), (9, 18), (10, 2)] ++
  [(10, 5), (10, 8), (10, 11), (10, 14), (10, 17), (10, 20), (11, 1), (11, 4), (11, 7), (11, 10), (11, 13), (11, 16), (11, 19), (12, 0), (12, 3), (12, 9), (12, 12)] ++
  [(12, 15), (12, 18), (13, 11), (13, 14), (13, 17), (13, 20), (14, 10), (14, 13), (14, 16), (14, 19), (15, 9), (15, 12), (15, 15), (15, 18), (16, 11), (16, 14), (16, 17)] ++
  [(16, 20), (17, 10), (17, 13), (17, 16), (17, 19), (18, 9), (18, 12), (18, 15), (18, 18), (19, 11), (19, 14), (19, 17), (19, 20), (20, 10), (20, 13), (20, 16), (20, 19)] := by decide +kernel

theorem test_mask : answers (exec .mask placedState) (fun t =>
    decide (t.matrix = matrixOf mskValue plcDefined ∧ t.status = 0x50#32)) = true := by
  decide +kernel

theorem test_mask_after_embedding : answers (exec .mask { placedState with phase := .embedded, cmdLatch := 6#32 }) (fun t =>
    decide (rowValues t.matrix = plcValue ∧ t.status = 0x6C#32 ∧ t.errInfo = 6#32)) = true := by
  decide +kernel

/-! ### FORMAT_EMBED (set EMB) -/

def maskedState : State := { blank with
  phase := .masked, cw := codewords abcdeData, fmt := 0x19D0#15, fmtValid := true, matrix := matrixOf mskValue plcDefined,
  zig := { rc := 1#5, row := 20#5, dir := .down, sub := .right, ended := true }, bidx := 208#8,
  inLen := 8#8, inChar := (withInput abcde123).inChar, nLatch := 8#8, bitLen := 44#6,
  bitStr := #v[0x39A8A53B#32, 0x85D00000#32], rsTable := answering zrs }

theorem test_format_embed : answers (exec .formatEmbed maskedState) (fun t =>
    decide (t.matrix = matrixOf p1Value allDefined ∧ t.status = 0xE0#32)) = true := by
  decide +kernel

theorem test_format_embed_needs_the_field : answers (exec .formatEmbed { maskedState with fmtValid := false, cmdLatch := 7#32 })
    (fun t => decide (rowValues t.matrix = mskValue ∧ t.status = 0x5C#32 ∧ t.errInfo = 7#32)) = true := by
  decide +kernel

/-! ### ENCODE and CLEAR (programs P1 and P2) -/

def encodeWaiting (a : RsAnswer) : State := { withInput abcde123 with
  busy := true, cmdLatch := 8#32, stage := 3#3, rsPort := some abcdeRequest, rsTable := answering a }

theorem test_encode_finishes : answers (exec .encode (encodeWaiting zrs)) (fun t =>
    decide (t.matrix = matrixOf p1Value allDefined ∧ t.status = 0xE0#32 ∧ t.bitStr = #v[0x39A8A53B#32, 0x85D00000#32] ∧
      t.cw = codewords abcdeData ∧ t.bchResult = 0#10)) = true := by
  decide +kernel

theorem test_encode_failure_keeps_stages_one_and_two : answers (exec .encode (encodeWaiting (.fail 1))) (fun t =>
    decide (t.status = 0x08#32 ∧ t.bitLen = 44#6 ∧ t.nLatch = 8#8 ∧ t.cw = codewords abcdeData ∧ t.fmt = 0#15)) = true := by
  decide +kernel

theorem test_clear : answers (exec .clear { maskedState with cmdLatch := 10#32 }) (fun t =>
    decide (t.status = 0#32 ∧ t.cw = codewords [] ∧ t.inLen = 8#8 ∧ t.zig = ZigZag.start ∧
      rowValues t.matrix = List.replicate 21 0)) = true := by
  decide +kernel

/-! ### The host port (set HOST) -/

theorem test_rd_is_the_register : answers (exec (.rd 0x023#12) augmentedState) (fun t => decide (t.readData = 0x45#32)) = true ∧
    answers (exec (.rd 0x007#12) augmentedState) (fun t => decide (t.readData = 0#32)) = true := by
  decide +kernel

/-- RD as the host's own move, row 9 of the symbol. -/
theorem test_step_runs_rd : answers (step { maskedState with inputs := [.rd 0x049#12] }) (fun t =>
    decide (t.readData = 0x0E9209#32)) = true := by
  decide +kernel

theorem test_wr_stores_the_low_byte : answers (step { blank with inputs := [.wr 0x100#12 0x141#32] }) (fun t =>
    decide (t.inChar[0] = 0x41#8 ∧ t.busy = false ∧ t.inLen = 0#8)) = true := by
  decide +kernel

theorem test_wr_while_busy : isViolation (exec (.wr 0x004#12 0x12345678#32) { blank with busy := true }) = true ∧
    answers (exec (.wr 0x004#12 0x12345678#32) blank) (fun t => decide (t.bitLen = 0#6)) = true := by
  decide +kernel

/-! ### Reset (set RST) -/

theorem test_reset_while_waiting : answers (step { waitingState zrs with inputs := [.reset] }) (fun t =>
    decide (t.status = 0#32 ∧ t.cw = codewords [] ∧ t.rsPort = none)) = true := by
  decide +kernel

/-! ### Witnesses -/

def finishedState : State := { maskedState with phase := .embedded, matrix := matrixOf p1Value allDefined }

/-- Ten characters, the most that fit. -/
def tenCharacters : State := withInput [0x41, 0x42, 0x43, 0x44, 0x45, 0x31, 0x32, 0x33, 0x34, 0x35]

/-- Eleven valid characters. -/
def elevenCharacters : State := withInput [0x41, 0x42, 0x43, 0x44, 0x45, 0x46, 0x47, 0x48, 0x49, 0x4A, 0x4B]

/-- "AB#", a bad character at index 2. -/
def badCharacter : State := withInput [0x41, 0x42, 0x23]

/-- The largest input the buffer holds, with its last slot bad. -/
def badLastSlot : State := { blank with
  inLen := 255#8
  inChar := Vector.ofFn fun i => if i.val = 254 then 0x61#8 else 0x41#8 }

theorem validInput_of_all {s : State} (h : s.inputString.all inAlphabet = true) : s.ValidInput := by
  rw [validInput_iff]; exact List.all_eq_true.mp h

theorem validInput_ten : tenCharacters.ValidInput := validInput_of_all (by decide +kernel)
theorem validInput_eleven : elevenCharacters.ValidInput := validInput_of_all (by decide +kernel)
theorem validInput_empty : blank.ValidInput := validInput_of_all (by decide +kernel)
theorem validInput_abcde123 : (withInput abcde123).ValidInput := validInput_of_all (by decide +kernel)

theorem witness_DecodeOfEncodeIsTheInstruction : (Instr.bchRem 0x7FFF#15).wellFormed = true ∧
    Instr.clear.wellFormed = true ∧ (Instr.rd 0xFFF#12).wellFormed = true ∧
    (Instr.wr 0xFFF#12 0xFFFFFFFF#32).wellFormed = true := by decide

theorem witness_DecodedWordIsTheEncodedWord : decode 0x007FFF09#32 = .ok (.bchRem 0x7FFF#15) ∧
    decode 0x0000000A#32 = .ok .clear := by decide

/-- The refused words: both ends of both reserved ranges, the lowest and highest RSV bit, the lowest and highest OPND
bit. -/
theorem witness_ReservedWordsAndNoOthersAreIllegal_refused :
    ∀ w ∈ [0x00000000#32, 0x0000000B#32, 0x000000FF#32, 0x00800009#32, 0x80000002#32, 0x00000108#32, 0x00400001#32],
      ∃ s : State, s.cmdLatch = w ∧ s.stage = 0#3 ∧
        ((w.toNat % 2 ^ 8 = 0x00 ∨ 0x0B ≤ w.toNat % 2 ^ 8) ∨ w.toNat / 2 ^ 23 ≠ 0 ∨
          (w.toNat % 2 ^ 8 ≠ 0x09 ∧ w.toNat / 2 ^ 8 % 2 ^ 15 ≠ 0)) := by
  intro w hw
  refine ⟨{ blank with cmdLatch := w }, rfl, rfl, ?_⟩
  revert w
  simp

theorem witness_ReservedWordsAndNoOthersAreIllegal_command :
    ∀ w ∈ [0x00000001#32, 0x0000000A#32, 0x00000009#32, 0x007FFF09#32],
      ∃ s : State, s.cmdLatch = w ∧
        ¬((w.toNat % 2 ^ 8 = 0x00 ∨ 0x0B ≤ w.toNat % 2 ^ 8) ∨ w.toNat / 2 ^ 23 ≠ 0 ∨
          (w.toNat % 2 ^ 8 ≠ 0x09 ∧ w.toNat / 2 ^ 8 % 2 ^ 15 ≠ 0)) := by
  intro w hw
  refine ⟨{ blank with cmdLatch := w }, rfl, ?_⟩
  revert w
  simp

theorem witness_StepRunsTheDecodedInstruction :
    (∃ s : State, s.inputs = [.block] ∧ s.busy = true ∧ s.rsPort = none ∧ decode s.cmdLatch = .ok .place) ∧
    (∃ s : State, s.inputs = [.answer] ∧ s.busy = true ∧ s.rsPort = some abcdeRequest ∧ decode s.cmdLatch = .ok .encode) ∧
    (∃ s : State, s.inputs = [] ∧ s.busy = true ∧ s.rsPort = none) ∧
    (∃ s : State, s.inputs = [.rd 0x001#12]) ∧ (∃ s : State, s.inputs = [.wr 0x003#12 8#32]) :=
  ⟨⟨{ blank with inputs := [.block], busy := true, cmdLatch := 5#32 }, rfl, rfl, rfl, by decide⟩,
    ⟨{ encodeWaiting zrs with inputs := [.answer] }, rfl, rfl, rfl, by decide⟩,
    ⟨{ blank with busy := true }, rfl, rfl, rfl⟩, ⟨{ blank with inputs := [.rd 0x001#12] }, rfl⟩,
    ⟨{ blank with inputs := [.wr 0x003#12 8#32] }, rfl⟩⟩

theorem witness_CommandCycleRunsTheWrittenWord : ∃ s : State, s.busy = false ∧ s.rsPort = none ∧
    s.inputs = [.wr 0x000#12 0x004C0009#32, .block] ∧ decode 0x004C0009#32 = .ok (.bchRem 0x4C00#15) :=
  ⟨{ blank with inputs := [.wr 0x000#12 0x004C0009#32, .block] }, rfl, rfl, rfl, by decide⟩

theorem witness_IdleAndWaitingBlockStaysAsItIs :
    (∃ s : State, s.inputs = [.block] ∧ s.busy = false) ∧
    (∃ s : State, s.inputs = [.block] ∧ s.rsPort = some abcdeRequest) ∧
    (∃ s : State, s.inputs = [.answer] ∧ s.rsPort = none) :=
  ⟨⟨{ blank with inputs := [.block] }, rfl, rfl⟩, ⟨{ encodeWaiting zrs with inputs := [.block] }, rfl, rfl⟩,
    ⟨{ blank with inputs := [.answer] }, rfl, rfl⟩⟩

theorem witness_OnlyAHostWriteWhileBusyStops :
    (∃ s : State, s.ViolatesNext) ∧ (∃ s : State, ¬ s.ViolatesNext ∧ s.inputs = [.wr 0x003#12 8#32]) ∧
    (∃ s : State, ¬ s.ViolatesNext ∧ s.busy = true) :=
  ⟨⟨{ blank with busy := true, inputs := [.wr 0x007#12 0#32] }, rfl, _, _, _, rfl⟩,
    ⟨{ blank with inputs := [.wr 0x003#12 8#32] }, fun h => absurd h.1 (by decide), rfl⟩,
    ⟨{ blank with busy := true }, fun ⟨_, _, _, _, h⟩ => List.cons_ne_nil _ _ h.symm, rfl⟩⟩

theorem witness_ResetAtAnyTimeGivesTheResetValues :
    (∃ s : State, s.inputs = [.reset] ∧ s.busy = true ∧ s.rsPort = some abcdeRequest) ∧
    (∃ s : State, s.inputs = [.reset] ∧ s.busy = false) :=
  ⟨⟨{ encodeWaiting zrs with inputs := [.reset] }, rfl, rfl, rfl⟩, ⟨{ blank with inputs := [.reset] }, rfl, rfl⟩⟩

/-- One address of each clause, at the ends of the ranges. -/
theorem witness_HostWriteFollowsTheAddressMap :
    (∃ s : State, s.busy = true) ∧ blank.busy = false ∧
    (0x100#12 : Addr).toNat = 0x100 + (0 : Fin 255).val ∧ (0x1FE#12 : Addr).toNat = 0x100 + (254 : Fin 255).val ∧
    (∀ a ∈ [0x001#12, 0x002#12, 0x004#12, 0x0FF#12, 0x1FF#12, 0xFFF#12],
      a ≠ 0x000#12 ∧ a ≠ 0x003#12 ∧ ¬(0x100 ≤ a.toNat ∧ a.toNat ≤ 0x1FE)) :=
  ⟨⟨{ blank with busy := true }, rfl⟩, rfl, rfl, rfl, by simp⟩

/-- The reserved addresses at the ends of their ranges, and a register at each end of its own. -/
theorem witness_HostReadReturnsTheNamedRegister :
    (∀ a ∈ [0x007#12, 0x00A#12, 0x01F#12, 0x03A#12, 0x03F#12, 0x055#12, 0x0FF#12, 0x1FF#12, 0xFFF#12],
      a.toNat = 0x007 ∨ (0x00A ≤ a.toNat ∧ a.toNat ≤ 0x01F) ∨ (0x03A ≤ a.toNat ∧ a.toNat ≤ 0x03F) ∨
        (0x055 ≤ a.toNat ∧ a.toNat ≤ 0x0FF) ∨ 0x1FF ≤ a.toNat) ∧
    finishedState.busy = false ∧ (0x000#12 : Addr).toNat = 0 ∧ finishedState.status = 0xE0#32 ∧
    (0x009#12 : Addr).toNat = 0x008 + (1 : Fin 2).val ∧ finishedState.bitStr[(1 : Fin 2)] = 0x85D00000#32 ∧
    (0x039#12 : Addr).toNat = 0x020 + (25 : Fin 26).val ∧ (0#32).toNat = (finishedState.cw[(25 : Fin 26)]).toNat ∧
    (0x1FE#12 : Addr).toNat = 0x100 + (254 : Fin 255).val ∧
    (0#32).toNat = (finishedState.inChar[(254 : Fin 255)]).toNat ∧
    (0x003#12 : Addr).toNat = 0x003 ∧ (8#32).toNat = finishedState.inLen.toNat ∧
    (0x004#12 : Addr).toNat = 0x004 ∧ (44#32).toNat = finishedState.bitLen.toNat ∧
    (0x005#12 : Addr).toNat = 0x005 ∧ (0x19D0#32).toNat = finishedState.fmt.toNat ∧
    (0x006#12 : Addr).toNat = 0x006 ∧ (0#32).toNat = finishedState.bchResult.toNat := by
  refine ⟨by simp, ?_⟩
  decide +kernel

/-- Rows 0 and 20, with a filled and an unfilled cell in row 8. -/
theorem witness_MatrixRowReadsFilledCells : placedState.busy = false ∧ (0x040#12 : Addr).toNat = 0x040 + 0 ∧
    (0x054#12 : Addr).toNat = 0x040 + 20 ∧ (placedState.matrix.cell 8 6).filled = true ∧
    (placedState.matrix.cell 8 20).filled = false := by
  decide +kernel

theorem witness_ReadsWhileBusyAreDrawsButTheBusyBit : (encodeWaiting zrs).busy = true ∧ (0x001#12 : Addr) ≠ 0x000#12 := by
  decide

/-- Each command in each phase next to those that may run it. -/
theorem witness_CommandOutOfPhaseIsRefused :
    blank.stage = 0#3 ∧ blank.phase ≠ .encoded ∧ encodedState.stage = 0#3 ∧ encodedState.phase ≠ .framed ∧
    finishedState.stage = 0#3 ∧ finishedState.phase ≠ .placed ∧ finishedState.phase ≠ .masked ∧
    finishedState.phase ≠ .augmented ∧ augmentedState.stage = 0#3 ∧ augmentedState.phase ≠ .placed ∧
    placedState.stage = 0#3 ∧ ¬(placedState.phase = .masked ∧ placedState.fmtValid = true) ∧
    (∃ s : State, s.stage = 0#3 ∧ s.phase = .masked ∧ ¬(s.phase = .masked ∧ s.fmtValid = true)) ∧
    answers (exec .mask { placedState with busy := true }) (fun t => !t.busy) = true ∧
    answers (exec .encode { encodeWaiting zrs with busy := true }) (fun t => !t.busy) = true :=
  ⟨rfl, by decide, rfl, by decide, rfl, by decide, by decide, by decide, rfl, by decide, rfl, by decide,
    ⟨{ maskedState with fmtValid := false }, rfl, rfl, by decide⟩, by decide +kernel, by decide +kernel⟩

/-- A step that changes PHASE: by a reset, by a command that succeeds (MASK, both ways, and ENCODE's end), and by a
stage error. -/
theorem witness_OnlyListedCommandsChangePhase :
    answers (step { placedState with inputs := [.reset] }) (fun t => decide (t.phase ≠ Phase.placed)) = true ∧
    answers (step { placedState with busy := true, cmdLatch := 6#32 }) (fun t => decide (t.phase ≠ Phase.placed)) = true ∧
    answers (step { maskedState with busy := true, cmdLatch := 6#32 }) (fun t => decide (t.phase ≠ Phase.masked)) = true ∧
    answers (step { encodeWaiting zrs with inputs := [.answer] }) (fun t => decide (t.phase ≠ Phase.idle)) = true ∧
    answers (step { waitingState (.fail 0) with inputs := [.answer] }) (fun t => decide (t.phase ≠ Phase.framed)) = true := by
  decide +kernel

theorem witness_CommandsThatDoNotWaitEndInOneMove : Instr.mask ≠ .ecAugment ∧ Instr.mask ≠ .encode ∧
    (∀ a, Instr.mask ≠ .rd a) ∧ (∀ a v, Instr.mask ≠ .wr a v) :=
  ⟨by decide, by decide, nofun, nofun⟩

theorem witness_OnlyTheHostWritesTheInputBuffer : ∃ s t : State, step s = .next t ∧ s.busy = true ∧
    (∀ a v rest, s.inputs ≠ .wr a v :: rest) ∧ (∀ rest, s.inputs ≠ .reset :: rest) :=
  ⟨{ maskedState with busy := true, cmdLatch := 10#32 }, _, rfl, rfl, nofun, nofun⟩

theorem witness_CollaboratorIsTheSameFunctionForEver : ∃ s t : State, Sys2Proof.core.run 3 s = .next t ∧ s.busy = true :=
  ⟨{ encodeWaiting zrs with inputs := [.block, .rd 0x001#12, .answer] }, _, rfl, rfl⟩

theorem witness_WithoutAnAnswerTheBlockStaysBusy : ∃ (s : State) (req : RsRequest), s.busy = true ∧ s.rsPort = some req ∧
    (∀ x ∈ s.inputs, x = .block ∨ ∃ a, x = .rd a) ∧ s.inputs = [.rd 0x001#12, .block] :=
  ⟨{ encodeWaiting zrs with inputs := [.rd 0x001#12, .block] }, abcdeRequest, rfl, rfl, by simp, rfl⟩

/-- Codes just outside the ranges of R76. -/
theorem witness_AlphanumericTableIsThePosition :
    ∀ c ∈ [0x00#8, 0x23#8, 0x3B#8, 0x40#8, 0x5B#8, 0x61#8, 0xFF#8],
      ¬(0x30 ≤ c.toNat ∧ c.toNat ≤ 0x39) ∧ ¬(0x41 ≤ c.toNat ∧ c.toNat ≤ 0x5A) ∧
        c.toNat ∉ [0x20, 0x24, 0x25, 0x2A, 0x2B, 0x2D, 0x2E, 0x2F, 0x3A] := by decide

/-- ":" has the largest value (R76). -/
theorem witness_AlnumEncodesPairsFromTheLeft : alnumValue 0x3A#8 = some 44 ∧ alnumValue 0x30#8 = some 0 := by decide

theorem witness_AlnumLengthIsElevenPerPair : ∀ c ∈ [0x41#8, 0x42#8, 0x43#8], inAlphabet c = true := by decide

theorem witness_AlnumDeterminesTheString : (∀ c ∈ [0x41#8, 0x42#8, 0x43#8], inAlphabet c = true) ∧
    [0x41#8, 0x42#8, 0x43#8].length = [0x41#8, 0x42#8, 0x43#8].length ∧
    alnum [0x41#8, 0x42#8, 0x43#8] = alnum [0x41#8, 0x42#8, 0x43#8] := by decide

/-- Clause by clause: no character, ten, a bad one at 2 and at 254, and eleven. -/
theorem witness_AlnumEncodeFollowsRuleOneHundredOne :
    (blank.ValidInput ∧ blank.inLen.toNat = 0) ∧ (tenCharacters.ValidInput ∧ tenCharacters.inLen.toNat = 10) ∧
    (2 < badCharacter.inLen.toNat ∧ inAlphabet badCharacter.inChar[(2 : Fin 255)] = false ∧
      ∀ j : Fin 255, j.val < 2 → inAlphabet badCharacter.inChar[j] = true) ∧
    (254 < badLastSlot.inLen.toNat ∧ inAlphabet badLastSlot.inChar[(254 : Fin 255)] = false ∧
      ∀ j : Fin 255, j.val < 254 → inAlphabet badLastSlot.inChar[j] = true) ∧
    (elevenCharacters.ValidInput ∧ elevenCharacters.inLen.toNat = 11) :=
  ⟨⟨validInput_empty, by decide +kernel⟩, ⟨validInput_ten, by decide +kernel⟩, by decide +kernel,
    ⟨by decide, by decide +kernel, fun j hj => by
      simp only [badLastSlot, Fin.getElem_fin, Vector.getElem_ofFn, if_neg (show ¬ j.val = 254 by omega)]
      decide⟩,
    ⟨validInput_eleven, by decide +kernel⟩⟩

theorem witness_SlotsPastTheLengthAreNeverRead : ∃ v : Vector Codeword 255,
    (∀ i : Fin 255, i.val < badCharacter.inLen.toNat → v[i] = badCharacter.inChar[i]) ∧ v[(3 : Fin 255)] ≠ badCharacter.inChar[(3 : Fin 255)] :=
  ⟨(withInput [0x41, 0x42, 0x23, 0x61]).inChar, by decide +kernel, by decide +kernel⟩

theorem witness_FrameStreamIsPaddedToSeventyTwoBits :
    ((0 ≤ 10) ∧ ([] : Bits).length = 11 * (0 / 2) + 6 * (0 % 2)) ∧
    ((10 ≤ 10) ∧ (List.replicate 55 true).length = 11 * (10 / 2) + 6 * (10 % 2)) := by decide

theorem witness_FrameWritesTheNineDataCodewords :
    (encodedState.phase = .encoded ∧ encodedState.nLatch.toNat ≤ 10) ∧
    (∃ s : State, s.phase = .encoded ∧ s.nLatch.toNat = 10) ∧ (∃ s : State, s.phase = .encoded ∧ s.nLatch.toNat = 11) ∧
    blank.phase ≠ .encoded :=
  ⟨⟨rfl, by decide⟩, ⟨{ encodedState with nLatch := 10#8 }, rfl, rfl⟩, ⟨{ encodedState with nLatch := 11#8 }, rfl, rfl⟩,
    by decide⟩

theorem witness_FrameUsesTheLatchedCountAndBits : tenCharacters.ValidInput ∧ tenCharacters.inLen.toNat ≤ 10 ∧
    (0x003#12 : Addr) ≠ 0x000#12 := ⟨validInput_ten, by decide +kernel, by decide⟩

/-- Clause by clause: no request yet; 26, 25 and 27 codewords; a failure; another phase. -/
theorem witness_EcAugmentSendsAndTakesTheAnswer :
    (∃ s : State, s.phase = .framed ∧ s.rsPort = none) ∧
    (∀ n ∈ [0, 25, 26, 27], let s := waitingState (.ok (List.replicate n 0#8))
      s.phase = .framed ∧ s.rsPort = some abcdeRequest ∧ (∀ k : Fin 9, abcdeRequest.data[k] = s.cw[k.val]) ∧
      s.rsAnswer abcdeRequest.data = .ok (List.replicate n 0#8) ∧ (List.replicate n 0#8).length = n) ∧
    (waitingState (.fail 7)).rsAnswer abcdeRequest.data = .fail 7 ∧ blank.phase ≠ .framed :=
  ⟨⟨{ waitingState zrs with rsPort := none }, rfl, rfl⟩, by decide +kernel, by decide +kernel, by decide⟩

theorem witness_BchCodewordsAreExactlyPayloadAndParity : bchrem 0x4DC2#15 = 0#10 ∧ bchrem 0x7FFF#15 = 0#10 := by
  decide +kernel

/-- Every clause of the step: right of a strip, both directions inside, both boundaries, RC = 8, 2, 20 and 1. -/
theorem witness_ZigZagStepFollowsRuleOneHundredFortyFive :
    (∀ z ∈ [zigzag 20 20 .up .right, zigzag 20 1 .up .left, zigzag 18 19 .down .left, zigzag 20 0 .up .left,
        zigzag 8 0 .up .left, zigzag 2 20 .down .left, zigzag 1 20 .down .left],
      z.ended = false ∧ 1 ≤ z.rc.toNat ∧ z.rc.toNat ≤ 20 ∧ z.row.toNat ≤ 20) ∧
    (0 < (zigzag 20 1 .up .left).row.toNat ∧ (zigzag 18 19 .down .left).row.toNat < 20 ∧
      (zigzag 20 0 .up .left).row.toNat = 0 ∧ (zigzag 2 20 .down .left).row.toNat = 20) ∧
    ((zigzag 8 0 .up .left).rc.toNat = 8 ∧ (zigzag 2 20 .down .left).rc.toNat = 2 ∧
      (zigzag 1 20 .down .left).rc.toNat = 1) := by decide

theorem witness_PlaceDepositsEveryBitInVisitOrder : blank.phase ≠ .augmented ∧ augmentedState.phase = .augmented ∧
    visitOrder[8 * 0 + 0]? = some (20, 20) ∧ visitOrder[8 * 25 + 7]? = some (12, 0) ∧
    tag 0 7 = .light ∧ tag 13 8 = .dark ∧ tag 8 20 = .formatReserved := by decide +kernel

theorem witness_MaskTogglesExactlyTheFlipSet : placedState.phase = .placed ∧ maskedState.phase = .masked ∧
    (finishedState.phase ≠ .placed ∧ finishedState.phase ≠ .masked) := by decide

theorem witness_MaskTwiceRestoresTheMatrix : placedState.phase = .placed ∧ maskedState.phase = .masked ∧
    tag 20 19 = .dataSlot ∧ (20 + 19) % 3 = 0 := by decide +kernel

theorem witness_FormatEmbedWritesBothCopies : (maskedState.phase = .masked ∧ maskedState.fmtValid = true) ∧
    ¬(placedState.phase = .masked ∧ placedState.fmtValid = true) := by decide

theorem witness_EncodeSendsTheFramedCodewords : tenCharacters.ValidInput ∧ tenCharacters.inLen.toNat ≤ 10 ∧
    tenCharacters.rsPort = none := ⟨validInput_ten, by decide +kernel, rfl⟩

theorem validInput_encodeWaiting (a : RsAnswer) : (encodeWaiting a).ValidInput := validInput_abcde123

theorem witness_EncodeEndsWithTheFinishedSymbol : (encodeWaiting zrs).ValidInput ∧ (encodeWaiting zrs).inLen.toNat ≤ 10 ∧
    (encodeWaiting zrs).rsPort = some abcdeRequest ∧
    abcdeRequest.data = framedCodewords (encodeWaiting zrs).inLen.toNat (alnum (encodeWaiting zrs).inputString) ∧
    (encodeWaiting zrs).rsAnswer abcdeRequest.data = .ok (codewords abcdeData).toList ∧
    (codewords abcdeData).toList.length = 26 ∧
    visitOrder[8 * 25 + 7]? = some (12, 0) ∧ formatBitAt 8 20 = some 0 ∧ formatBitAt 20 8 = some 14 :=
  ⟨validInput_encodeWaiting _, by decide +kernel, rfl, by decide +kernel, by decide +kernel, by decide +kernel,
    by decide +kernel, by decide, by decide⟩

theorem witness_EncodeStopsAtTheFirstError :
    (2 < badCharacter.inLen.toNat ∧ inAlphabet badCharacter.inChar[(2 : Fin 255)] = false ∧
      ∀ j : Fin 255, j.val < 2 → inAlphabet badCharacter.inChar[j] = true) ∧
    (elevenCharacters.ValidInput ∧ 10 < elevenCharacters.inLen.toNat) ∧
    ((encodeWaiting (.fail 7)).ValidInput ∧ (encodeWaiting (.fail 7)).inLen.toNat ≤ 10 ∧
      (encodeWaiting (.fail 7)).rsPort = some abcdeRequest ∧
      (encodeWaiting (.fail 7)).rsAnswer abcdeRequest.data = .fail 7) ∧
    ((encodeWaiting (.ok [])).rsAnswer abcdeRequest.data = .ok [] ∧ ([] : List Codeword).length ≠ 26) :=
  ⟨by decide +kernel, ⟨validInput_eleven, by decide +kernel⟩,
    ⟨validInput_encodeWaiting _, by decide +kernel, rfl, by decide +kernel⟩, by decide +kernel⟩

/-- The state that ENCODE starts from in program P1. -/
def encodeReady : State := { withInput abcde123 with rsTable := answering zrs }

theorem witness_EncodeIsTheSevenStagesInOrder : encodeReady.ValidInput ∧ encodeReady.inLen.toNat ≤ 10 ∧
    encodeReady.rsPort = none ∧
    encodeReady.rsAnswer (framedCodewords encodeReady.inLen.toNat (alnum encodeReady.inputString)) =
      .ok (codewords abcdeData).toList ∧ (codewords abcdeData).toList.length = 26 :=
  ⟨validInput_abcde123, by decide +kernel, rfl, by decide +kernel, by decide +kernel⟩

/-- A state of PHASE 6 that meets the invariant: the end of program P1. -/
theorem finishedState_inv : finishedState.Inv where
  quiet _ := rfl
  stageZero _ := rfl
  waiting req h := by cases h
  noInfo _ := rfl
  format := by decide
  tail := by
    have key : ∀ j : Fin 64, finishedState.bitLen.toNat ≤ j.val → finishedState.packedBit j.val = false := by
      decide +kernel
    intro j h1 h2
    exact key ⟨j, h2⟩ h1
  encoded _ := ⟨abcde123.map (BitVec.ofNat 8), by decide +kernel, by decide +kernel, by decide, by decide +kernel,
    by decide +kernel⟩
  framed h := by cases h
  augmented _ := by decide +kernel
  light _ := by
    have key : ∀ r c : Fin 21, tag r.val c.val = .light →
        finishedState.matrix.cell r.val c.val = { filled := true, val := false } := by decide +kernel
    intro r c hr hc
    exact key ⟨r, hr⟩ ⟨c, hc⟩
  dark _ := by
    have key : ∀ r c : Fin 21, tag r.val c.val = .dark →
        finishedState.matrix.cell r.val c.val = { filled := true, val := true } := by decide +kernel
    intro r c hr hc
    exact key ⟨r, hr⟩ ⟨c, hc⟩
  data _ := by
    have key : ∀ x ∈ visitOrder.zipIdx, finishedState.matrix.cell x.1.1 x.1.2 =
        { filled := true, val := placementBit finishedState.cw x.2 ^^ (decide (finishedState.phase ≠ .placed) && mask3 x.1.1 x.1.2) } := by
      decide +kernel
    intro i r c h
    exact key ((r, c), i) (List.mem_zipIdx_iff_getElem?.mpr h)
  reserved h := by rcases h with h | h <;> cases h
  embedded _ := by
    refine ⟨rfl, ?_⟩
    have key : ∀ r c : Fin 21, ∀ k ∈ formatBitAt r.val c.val,
        finishedState.matrix.cell r.val c.val = { filled := true, val := finishedState.fmt.getLsbD k } := by decide +kernel
    intro r c k h hr hc
    exact key ⟨r, hr⟩ ⟨c, hc⟩ k h
  zigzag := .inr ⟨rfl, rfl⟩

theorem witness_EveryStepKeepsTheInvariant : ∃ s t : State, s.Inv ∧ s.phase = .embedded ∧ step s = .next t :=
  ⟨finishedState, _, finishedState_inv, rfl, rfl⟩

theorem witness_FinishedSymbolIsReadBackWhole : finishedState.Inv ∧ finishedState.phase = .embedded ∧
    finishedState.busy = false ∧ (0x040#12 : Addr).toNat = 0x040 + 0 ∧ (0x054#12 : Addr).toNat = 0x040 + 20 :=
  ⟨finishedState_inv, rfl, rfl, by decide, by decide⟩

theorem witness_BothFormatCopiesDecodeToTheField : finishedState.Inv ∧ finishedState.phase = .embedded :=
  ⟨finishedState_inv, rfl⟩

end Sys2Proof.Tests
end

section
/-! PROOFS. The reset values (10_state.md R39). -/

namespace Sys2Proof.Machine

/-- R39: FILLED(r,c) = 0, whatever the draws in VAL. -/
@[simp] theorem State.resetAt_cell_filled (k r c : Nat) : ((State.resetAt k).matrix.cell r c).filled = false := by
  by_cases h : r < 21 ∧ c < 21
  · obtain ⟨hr, hc⟩ := h
    simp [SymbolMatrix.cell_eq hr hc, State.resetAt]
  · rw [SymbolMatrix.cell_outside _ h]

/-- R39 for a reset whose draws are numbered from any `k`: no item that has a reset value takes it from a draw. -/
theorem State.resetAt_hasResetValues (k : Nat) : (State.resetAt k).HasResetValues where
  status := by
    show 0#24 ++ BitVec.ofBool false ++ Phase.idle.code ++ ErrCode.none.code ++ BitVec.ofBool false = 0#32
    decide
  errInfo := rfl
  inLen := rfl
  bitLen := rfl
  bitStr i := Vector.getElem_replicate i.isLt
  cw i := Vector.getElem_replicate i.isLt
  fmt := rfl
  bchResult := rfl
  filled := State.resetAt_cell_filled k
  nLatch := rfl
  zig := rfl
  bidx := rfl
  cmdLatch := rfl
  stage := rfl
  rsPending := rfl

/-- Settles O10: `State.reset` is the reset whose draws are numbered from 0. -/
theorem resetStateHasTheResetValues : Obligations.ResetStateHasTheResetValues :=
  State.resetAt_hasResetValues 0

end Sys2Proof.Machine
end

section
/-! PROOFS. The address map (10_state.md R22), and the host write over it (20_memory.md R53, R55). -/

namespace Sys2Proof.Machine

/-- The address column of R22. -/
def RegName.addr : RegName → Nat
  | .cmd => 0x000
  | .status => 0x001
  | .errInfo => 0x002
  | .inLen => 0x003
  | .bitLen => 0x004
  | .fmt => 0x005
  | .bchResult => 0x006
  | .bitStr k => 0x008 + k.val
  | .cw k => 0x020 + k.val
  | .matrixRow r => 0x040 + r.val
  | .inChar i => 0x100 + i.val

/-- The ranges of R22 do not overlap: an address names a register exactly when it is that register's own. -/
theorem regAt_eq_some_iff {a : Addr} {r : RegName} : regAt a = some r ↔ a.toNat = r.addr := by
  constructor
  · fun_cases regAt a
    all_goals
      intro h
      cases h
    all_goals grind [RegName.addr]
  · intro h
    cases r <;> simp only [RegName.addr] at h <;> grind (splits := 11) [regAt]

/-- R55: a write is ignored at an address that names neither CMD, IN_LEN nor a slot of IN_CHAR. -/
theorem State.hostWrite_of_not_writable {s : State} {a : Addr} (v : Word) (hcmd : regAt a ≠ some .cmd)
    (hlen : regAt a ≠ some .inLen) (hchar : ∀ i, regAt a ≠ some (.inChar i)) : s.hostWrite a v = s := by
  unfold State.hostWrite
  split
  case h_1 h => exact absurd h hcmd
  case h_2 h => exact absurd h hlen
  case h_3 i h => exact absurd h (hchar i)
  all_goals rfl

/-- R226. -/
theorem exec_wr_of_busy {s : State} (a : Addr) (v : Word) (hb : s.busy = true) :
    exec (.wr a v) s = .fault .hostViolation := by
  simp [exec, execWr, hb]

theorem exec_wr_of_not_busy {s : State} (a : Addr) (v : Word) (hb : s.busy = false) :
    exec (.wr a v) s = .next (s.hostWrite a v) := by
  simp [exec, execWr, hb]

/-- Settles O11: outside BUSY, by the register that the address names. -/
theorem hostWriteFollowsTheAddressMap : Obligations.HostWriteFollowsTheAddressMap := by
  intro s a v
  refine ⟨exec_wr_of_busy a v, fun hb => ?_⟩
  have low : v.extractLsb' 0 8 = v.setWidth 8 := (BitVec.setWidth_eq_extractLsb' (by decide)).symm
  rw [exec_wr_of_not_busy a v hb, low]
  refine ⟨?cmd, ?inLen, ?inChar, ?ignored⟩
  case cmd =>
    intro ha
    have names : regAt a = some .cmd := by rw [ha]; rfl
    simp only [State.hostWrite, names, State.startCommand]
  case inLen =>
    intro ha
    have names : regAt a = some .inLen := by rw [ha]; rfl
    simp only [State.hostWrite, names]
  case inChar =>
    intro i ha
    have names : regAt a = some (.inChar i) := by rwa [regAt_eq_some_iff]
    simp only [State.hostWrite, names]
  case ignored =>
    intro hcmd hlen hchar
    rw [State.hostWrite_of_not_writable v]
    all_goals
      simp only [ne_eq, regAt_eq_some_iff, RegName.addr]
      bv_omega

end Sys2Proof.Machine
end

section
/-! PROOFS. The command word: its fields by arithmetic, its instruction, its refusal (30_encoding.md R70 to R72). -/

namespace Sys2Proof

/-! ### The fields of a word (R70) -/

theorem fieldsOf_op_toNat (w : Word) : (fieldsOf w).op.toNat = w.toNat % 2 ^ 8 := by
  simp [fieldsOf, BitVec.extractLsb'_toNat]

theorem fieldsOf_opnd_toNat (w : Word) : (fieldsOf w).opnd.toNat = w.toNat / 2 ^ 8 % 2 ^ 15 := by
  simp [fieldsOf, BitVec.extractLsb'_toNat, Nat.shiftRight_eq_div_pow]

/-- RSV is the top field, so nothing is left to cut off above it. -/
theorem fieldsOf_rsv_toNat (w : Word) : (fieldsOf w).rsv.toNat = w.toNat / 2 ^ 23 := by
  have top : w.toNat / 2 ^ 23 < 2 ^ 9 := by omega
  simp only [fieldsOf, BitVec.extractLsb'_toNat, Nat.shiftRight_eq_div_pow, Nat.mod_eq_of_lt top]

/-- The three checks of R72, on a word as a number. -/
theorem fieldsOf_wellFormed_iff (w : Word) : (fieldsOf w).wellFormed = true ↔
    (0x01 ≤ w.toNat % 2 ^ 8 ∧ w.toNat % 2 ^ 8 ≤ 0x0A) ∧ w.toNat / 2 ^ 23 = 0 ∧
      (w.toNat % 2 ^ 8 = 0x09 ∨ w.toNat / 2 ^ 8 % 2 ^ 15 = 0) := by
  simp only [CmdFields.wellFormed, CmdFields.opcodeOk, CmdFields.reservedOk, CmdFields.operandOk, Bool.and_eq_true,
    decide_eq_true_eq, ← BitVec.toNat_inj, fieldsOf_op_toNat, fieldsOf_opnd_toNat, fieldsOf_rsv_toNat,
    BitVec.toNat_ofNat, Nat.reduceMod, Nat.reducePow, and_assoc]

/-! ### The opcode map (R71) -/

/-- BCH_REM's word as R71 writes it, the opcode with the dividend from bit 8 up: its fields do not overlap. -/
theorem fieldsOf_bchRemWord (d : BitVec 15) :
    fieldsOf (0x00000009#32 ||| (d.setWidth 32 <<< 8)) = { op := 0x09#8, opnd := d, rsv := 0#9 } := by
  simp only [fieldsOf, BitVec.extractLsb'_or, CmdFields.mk.injEq]
  refine ⟨?op, ?opnd, ?rsv⟩
  all_goals
    ext
    grind

theorem decode_bchRemWord (d : BitVec 15) : decode (0x00000009#32 ||| (d.setWidth 32 <<< 8)) = .ok (.bchRem d) := by
  rw [decode_ok_iff, fieldsOf_bchRemWord]
  exact ⟨rfl, rfl, absurd rfl⟩

/-- Settles O1: nine rows are one word each, and BCH_REM's takes its dividend from the word. -/
theorem commandWordsOfRuleSeventyOneDecode : Obligations.CommandWordsOfRuleSeventyOneDecode :=
  ⟨rfl, rfl, rfl, rfl, rfl, rfl, rfl, rfl, decode_bchRemWord, rfl⟩

end Sys2Proof

namespace Sys2Proof.Machine

/-! ### Refusing a command (60_exceptions.md R202 (b)) -/

/-- A refusal writes ERR, ERR_INFO and BUSY alone, in a block whose STAGE is already what completion makes it. -/
theorem State.refuse_of_stage_zero {s : State} {e : ErrCode} (he : e.isStageError = false) (hs : s.stage = 0#3) :
    s.refuse e = { s with busy := false, err := e, errInfo := s.cmdLatch } := by
  simp [State.refuse, State.raise, he, State.complete, hs]

theorem runCommand_of_decode_ok {s : State} {i : Instr} (h : decode s.cmdLatch = .ok i) : runCommand s = exec i s := by
  simp [runCommand, h]

theorem runCommand_of_no_decode {s : State} (h : ¬∃ i, decode s.cmdLatch = .ok i) :
    runCommand s = .next (s.refuse .illegalCommand) := by
  unfold runCommand
  split
  case h_1 i hi => exact absurd ⟨i, hi⟩ h
  case h_2 => rfl

/-- Settles O4: a word is refused exactly when a check of R72 fails on its fields. -/
theorem reservedWordsAndNoOthersAreIllegal : Obligations.ReservedWordsAndNoOthersAreIllegal := by
  intro s op opnd rsv
  have decodes : (∃ i, decode s.cmdLatch = .ok i) ↔
      ¬((op = 0x00 ∨ 0x0B ≤ op) ∨ rsv ≠ 0 ∨ (op ≠ 0x09 ∧ opnd ≠ 0)) := by
    rw [decode_isOk_iff, fieldsOf_wellFormed_iff]
    omega
  constructor
  · intro reserved hs
    rw [runCommand_of_no_decode fun h => decodes.mp h reserved, State.refuse_of_stage_zero rfl hs]
  · intro notReserved
    obtain ⟨i, hi⟩ := decodes.mpr notReserved
    exact ⟨i, hi, runCommand_of_decode_ok hi⟩

end Sys2Proof.Machine
end

section
/-! PROOFS. The phase precondition (30_encoding.md R73). -/

namespace Sys2Proof.Machine

/-- The table of R73, read as what fails: five commands have a precondition. -/
theorem phaseOk_eq_false_iff {i : Instr} {s : State} : phaseOk i s = false ↔
    (i = .frame ∧ s.phase ≠ .encoded) ∨ (i = .ecAugment ∧ s.phase ≠ .framed) ∨
      (i = .place ∧ s.phase ≠ .augmented) ∨ (i = .mask ∧ s.phase ≠ .placed ∧ s.phase ≠ .masked) ∨
      (i = .formatEmbed ∧ ¬(s.phase = .masked ∧ s.fmtValid = true)) := by
  cases i <;> simp [phaseOk]

/-- A command out of its phase is refused, before its own rule says anything. -/
theorem exec_of_not_phaseOk {i : Instr} {s : State} (h : phaseOk i s = false) :
    exec i s = .next (s.refuse .sequenceError) := by
  have refused (body : State → State) : s.ifPhase i body = s.refuse .sequenceError := by simp [State.ifPhase, h]
  obtain ⟨rfl, -⟩ | ⟨rfl, -⟩ | ⟨rfl, -⟩ | ⟨rfl, -⟩ | ⟨rfl, -⟩ := phaseOk_eq_false_iff.mp h
  all_goals exact congrArg Host.Outcome.next (refused _)

/-- How ERR stands after the move of a command that passed its phase check: the command waits for the collaborator, or
it ended without error, or with a stage error. -/
theorem CommandEffect.waits_or_err {i : Instr} {s t : State} (effect : CommandEffect i s t) (ok : phaseOk i s = true) :
    t.busy = s.busy ∨ t.err = .none ∨ t.err.isStageError = true := by
  obtain ⟨refused, -⟩ | ⟨_, _, stageError, rfl⟩ | ⟨-, -, -, rfl⟩ | ⟨-, -, rfl⟩ | ⟨-, -, -, rfl⟩ |
    ⟨-, -, _, _, -, -, rfl⟩ | ⟨-, rfl⟩ | ⟨-, -, rfl⟩ | ⟨-, -, rfl⟩ | ⟨-, -, -, rfl⟩ | ⟨-, -, -, -, rfl⟩ |
    ⟨-, -, -, _, _, -, -, rfl⟩ | ⟨-, -, -, _, _, _, stageError, rfl⟩ | ⟨_, -, rfl⟩ | ⟨-, rfl⟩ := effect
  · exact absurd (refused.symm.trans ok) Bool.false_ne_true
  · exact .inr (.inr stageError)
  · exact .inr (.inl rfl) -- ALNUM_ENCODE
  · exact .inr (.inl rfl) -- FRAME
  · exact .inl rfl -- EC_AUGMENT's request
  · exact .inr (.inl rfl) -- EC_AUGMENT's end
  · exact .inr (.inl rfl) -- FORMAT_BUILD
  · exact .inr (.inl rfl) -- PLACE
  · exact .inr (.inl rfl) -- MASK
  · exact .inr (.inl rfl) -- FORMAT_EMBED
  · exact .inl rfl -- ENCODE's request
  · exact .inr (.inl rfl) -- ENCODE's end
  · exact .inr (.inr stageError)
  · exact .inr (.inl rfl) -- BCH_REM
  · exact .inr (.inl rfl) -- CLEAR

/-- A running instruction that passes its phase check and ends the command does not end it with SEQUENCE_ERROR. A read
ends no command (R52), and a write is no next state while BUSY = 1 (R226). -/
theorem exec_err_ne_sequenceError {i : Instr} {s t : State} (ok : phaseOk i s = true) (hbusy : s.busy = true)
    (ht : exec i s = .next t) (hend : t.busy = false) : t.err ≠ .sequenceError := by
  have ended : t.busy ≠ s.busy := by simp [hbusy, hend]
  have ofCommand (hrd : ∀ a, i ≠ .rd a) (hwr : ∀ a v, i ≠ .wr a v) : t.err ≠ .sequenceError := by
    obtain waits | noError | stageError := (exec_next_cases ht hrd hwr).waits_or_err ok
    · exact absurd waits ended
    · simp [noError]
    · intro h
      simp [h, ErrCode.isStageError] at stageError
  cases i with
  | rd a =>
    cases ht
    exact absurd rfl ended
  | wr a v =>
    rw [exec_wr_of_busy a v hbusy] at ht
    cases ht
  | _ => exact ofCommand nofun nofun

/-- Settles O16: the phase check comes before a command's own rule, and no rule of a command raises its error. -/
theorem commandOutOfPhaseIsRefused : Obligations.CommandOutOfPhaseIsRefused := by
  intro s i fails
  have phase : phaseOk i s = false ↔ fails := phaseOk_eq_false_iff
  constructor
  · intro failed hs
    rw [exec_of_not_phaseOk (phase.mpr failed), State.refuse_of_stage_zero rfl hs]
  · intro met hbusy t
    have ok : phaseOk i s = true := by rwa [← Bool.not_eq_false, phase]
    exact exec_err_ne_sequenceError ok hbusy

end Sys2Proof.Machine
end

section
/-! PROOFS. The alphanumeric table (30_encoding.md R76). -/

namespace Sys2Proof.Machine

theorem alnumValue_eq_none_iff (c : Codeword) : alnumValue c = none ↔ c ∉ alphabet := by
  rw [← inAlphabet_iff_mem, inAlphabet, Bool.not_eq_true, Option.isSome_eq_false_iff, Option.isNone_iff_eq_none]

theorem alphabet_digit : ∀ k : Fin 10, alphabet[k.val]? = some (BitVec.ofNat 8 (0x30 + k.val)) := by decide

theorem alphabet_letter : ∀ k : Fin 26, alphabet[10 + k.val]? = some (BitVec.ofNat 8 (0x41 + k.val)) := by decide

/-- The listing of R76 has digits, capital letters and nine other codes, no more. -/
theorem mem_alphabet_ranges : ∀ c ∈ alphabet, (0x30 ≤ c.toNat ∧ c.toNat ≤ 0x39) ∨
    (0x41 ≤ c.toNat ∧ c.toNat ≤ 0x5A) ∨ c.toNat ∈ [0x20, 0x24, 0x25, 0x2A, 0x2B, 0x2D, 0x2E, 0x2F, 0x3A] := by
  decide +kernel

/-- The code that R76 lists at position `k` has the value `k`. -/
theorem alnumValue_of_getElem? {k : Nat} {c : Codeword} (h : alphabet[k]? = some c) : alnumValue c = some k := by
  obtain ⟨hk, rfl⟩ := List.getElem?_eq_some_iff.mp h
  exact alnumValue_getElem k hk

/-- Settles O22: each code stands in the listing at its value, and no code outside the three ranges is listed. -/
theorem alphanumericTableIsThePosition : Obligations.AlphanumericTableIsThePosition := by
  refine ⟨fun k => alnumValue_of_getElem? (alphabet_digit k), fun k => alnumValue_of_getElem? (alphabet_letter k),
    alnumValue_of_getElem? rfl, alnumValue_of_getElem? rfl, alnumValue_of_getElem? rfl, alnumValue_of_getElem? rfl,
    alnumValue_of_getElem? rfl, alnumValue_of_getElem? rfl, alnumValue_of_getElem? rfl, alnumValue_of_getElem? rfl,
    alnumValue_of_getElem? rfl, ?notListed⟩
  case notListed =>
    intro c notDigit notLetter notOther
    rw [alnumValue_eq_none_iff]
    intro listed
    obtain h | h | h := mem_alphabet_ranges c listed
    · exact notDigit h
    · exact notLetter h
    · exact notOther h

end Sys2Proof.Machine
end

section
/-! PROOFS. The alphanumeric encoder (40_alnum_encoder.md R100, R101, R103). -/

namespace Sys2Proof.Machine

/-! ### The encoding function (R100, R103) -/

/-- `bin` puts the most significant bit first (00_scope.md R9). -/
theorem bin_getElem? {k i : Nat} (v : Nat) (h : i < k) : (bin k v)[i]? = some (v.testBit (k - 1 - i)) := by
  have hi : i < (bin k v).length := by rwa [bin_length]
  rw [List.getElem?_eq_getElem hi, bin_getElem]

/-- Settles O23: the three cases of R100 are the encoder's lemmas, and a pair's bits are those of `bin 11`. -/
theorem alnumEncodesPairsFromTheLeft : Obligations.AlnumEncodesPairsFromTheLeft :=
  ⟨alnum_nil, fun _ _ hc => alnum_single hc, fun _ _ v w rest hc hd =>
    ⟨bin 11 (v * 45 + w), bin_length _ _, fun _ hi => bin_getElem? _ hi, alnum_pair hc hd rest⟩⟩

/-- Settles O24: no character of the string lacks a value, so the table values are as many as the characters. -/
theorem alnumLengthIsElevenPerPair : Obligations.AlnumLengthIsElevenPerPair :=
  fun _ valid => length_alnum valid

/-! ### The command (R101) -/

/-- Bit by bit, BITSTR[k] is the stream from bit 32k on, most significant first, and 0 past its end (R28). -/
theorem packBits_getLsbD (b : Bits) (k : Fin 2) {j : Nat} (hj : j < 32) :
    (packBits b)[k].getLsbD (31 - j) = (b[32 * k.val + j]?).getD false := by
  have word : (packBits b)[k] = wordOf 32 fun i => streamBit b (32 * k.val + (31 - i)) := by simp [packBits]
  have inWord : 31 - j < 32 := by omega
  have index : 31 - (31 - j) = j := by omega
  rw [word, wordOf_getLsbD, index, decide_eq_true inWord, Bool.true_and, streamBit, List.getD_eq_getElem?_getD]

/-- BITLEN holds the length of every stream that ALNUM_ENCODE accepts, at most 55 of its 63 (R28, R103). -/
theorem bitLen_toNat_of_valid {s : State} (valid : s.ValidInput) (fits : s.inLen.toNat ≤ 10) :
    (BitVec.ofNat 6 (alnum s.inputString).length).toNat = (alnum s.inputString).length := by
  have bound : (alnum s.inputString).length ≤ 55 :=
    length_alnum_le ((validInput_iff s).mp valid) (by rwa [inputString_length])
  rw [BitVec.toNat_ofNat, Nat.mod_eq_of_lt (by omega)]

/-- ALNUM_ENCODE has no phase precondition (30_encoding.md R73): it is its body from every state. -/
theorem exec_alnumEncode (s : State) : exec .alnumEncode s = .next (alnumBody s).finish := rfl

theorem exec_alnumEncode_invalid {s : State} {i : Nat} (bad : firstInvalid s.inputString = some i) :
    exec .alnumEncode s = .next { s with
      phase := .idle, err := .invalidCharacter, errInfo := BitVec.ofNat 32 i, rsPort := none,
      busy := false, stage := 0#3 } := by
  rw [exec_alnumEncode, alnumBody_invalid bad, finish_error rfl]

theorem exec_alnumEncode_capacity {s : State} (valid : s.ValidInput) (long : 10 < s.inLen.toNat) :
    exec .alnumEncode s = .next { s with
      phase := .idle, err := .capacityExceeded, errInfo := BitVec.ofNat 32 s.inLen.toNat, rsPort := none,
      busy := false, stage := 0#3 } := by
  rw [exec_alnumEncode, alnumBody_capacity (firstInvalid_of_valid valid) long, finish_error rfl]

/-- Settles O26: the first bad slot decides, then the length, and only a valid input that fits is encoded. -/
theorem alnumEncodeFollowsRuleOneHundredOne : Obligations.AlnumEncodeFollowsRuleOneHundredOne := by
  intro s
  refine ⟨?encoded, ?invalidCharacter, ?capacityExceeded⟩
  case encoded =>
    intro valid fits
    exact ⟨packBits (alnum s.inputString), BitVec.ofNat 6 (alnum s.inputString).length,
      exec_alnumEncode_valid valid fits, bitLen_toNat_of_valid valid fits, fun k _ hj => packBits_getLsbD _ k hj⟩
  case invalidCharacter =>
    intro i inInput bad before
    exact exec_alnumEncode_invalid (firstInvalid_of_slot inInput bad before)
  case capacityExceeded =>
    intro valid long
    exact exec_alnumEncode_capacity valid long

end Sys2Proof.Machine
end

section
/-! PROOFS. The codeword framer (41_codeword_framer.md R110 to R112). -/

namespace Sys2Proof.Machine

/-! ### FRAMESTREAM (R110, R112) -/

/-- The number of pad codewords that R112 gives, 9 − (L + z)/8, is the number of whole bytes still missing from 72
bits: the zero bits finish the byte that is begun. -/
theorem padCount_eq (len : Nat) : 9 - (len + (8 - len % 8) % 8) / 8 = (72 - len) / 8 := by
  omega

/-- Settles O28: the closed form of FRAMESTREAM, with its head cut into the four fields. A stream that ALNUM gives for
at most 10 characters has at most 55 bits, so the head fits in 72. -/
theorem frameStreamIsPaddedToSeventyTwoBits : Obligations.FrameStreamIsPaddedToSeventyTwoBits := by
  intro n b few len
  have fits : 17 + b.length ≤ 72 := by omega
  refine ⟨bin 9 n, List.replicate ((8 - (17 + b.length) % 8) % 8) false,
    (List.range ((72 - (17 + b.length)) / 8)).flatMap padWord, frameStream_eq n b fits, bin_length 9 n,
    fun i hi => bin_getElem? n hi, rfl, ?padCodewords, length_frameStream n b fits⟩
  case padCodewords =>
    rw [List.length_replicate, padCount_eq]
    rfl

/-! ### The command (R111) -/

/-- Stream bit 8k + j is bit 7 - j of codeword k, and 0 past the stream's end (20_memory.md R63). -/
theorem streamCodeword_bit (t : Bits) (k : Nat) {j : Nat} (hj : j < 8) :
    (streamCodeword t k).getLsbD (7 - j) = (t[8 * k + j]?).getD false := by
  have inCodeword : 7 - j < 8 := by omega
  have index : 7 - (7 - j) = j := by omega
  rw [streamCodeword_getLsbD, index, decide_eq_true inCodeword, Bool.true_and, streamBit, List.getD_eq_getElem?_getD]

theorem exec_frame_capacity {s : State} (encoded : s.phase = .encoded) (long : 10 < s.nLatch.toNat) :
    exec .frame s = .next { s with
      phase := .idle, err := .capacityExceeded, errInfo := BitVec.ofNat 32 s.nLatch.toNat, rsPort := none,
      busy := false, stage := 0#3 } := by
  have ok : phaseOk .frame s = true := by simp [phaseOk, encoded]
  rw [exec, execFrame, ifPhase_of_ok _ ok, frameBody_error long, finish_error rfl]

theorem exec_frame_outOfPhase {s : State} (notEncoded : s.phase ≠ .encoded) :
    exec .frame s = .next { s with err := .sequenceError, errInfo := s.cmdLatch, busy := false, stage := 0#3 } := by
  have refused : phaseOk .frame s = false := by simp [phaseOk, notEncoded]
  rw [exec, execFrame, ifPhase_of_not _ refused]

/-- Settles O29: in PHASE 1 the latched count decides between the codewords and the capacity error, and any other phase
is refused. -/
theorem frameWritesTheNineDataCodewords : Obligations.FrameWritesTheNineDataCodewords := by
  intro s
  refine ⟨?framed, exec_frame_capacity, exec_frame_outOfPhase⟩
  case framed =>
    intro encoded fits
    refine ⟨_, exec_frame_fits encoded fits, ?dataCodewords, ?kept⟩
    case dataCodewords =>
      intro k j hk hj
      simp only [Fin.getElem_fin, Vector.getElem_ofFn, if_pos hk, streamCodeword_bit _ _ hj]
    case kept =>
      intro k hk
      simp only [Fin.getElem_fin, Vector.getElem_ofFn, if_neg (Nat.not_lt.mpr hk)]

end Sys2Proof.Machine
end

section
/-! PROOFS. The collaborator's request and its answers (42_ec_augment.md R122, R123, R126). -/

namespace Sys2Proof.Machine

/-- R123 with a request out: the command's move is its body on the answer to what was sent, and the completion update. -/
theorem exec_ecAugment_answer {s : State} {req : RsRequest} (framed : s.phase = .framed)
    (pending : s.rsPort = some req) :
    exec .ecAugment s = .next (augmentBody (s.rsAnswer req.data) s).finish := by
  have ok : phaseOk .ecAugment s = true := by simp [phaseOk, framed]
  rw [exec, execEcAugment, ifPhase_of_ok _ ok, pending]

theorem exec_ecAugment_mismatch {s : State} {req : RsRequest} {seq : List Codeword} (framed : s.phase = .framed)
    (pending : s.rsPort = some req) (answer : s.rsAnswer req.data = .ok seq) (wrongLength : seq.length ≠ 26) :
    exec .ecAugment s = .next { s with
      phase := .idle, err := .layoutMismatch, errInfo := BitVec.ofNat 32 (8 * seq.length), rsPort := none,
      busy := false, stage := 0#3 } := by
  rw [exec_ecAugment_answer framed pending, answer, augmentBody_mismatch wrongLength, finish_error rfl]

theorem exec_ecAugment_rsFailure {s : State} {req : RsRequest} {e : Nat} (framed : s.phase = .framed)
    (pending : s.rsPort = some req) (answer : s.rsAnswer req.data = .fail e) :
    exec .ecAugment s = .next { s with
      phase := .idle, err := .rsFailure, errInfo := Config.rsErrInfo e, rsPort := none,
      busy := false, stage := 0#3 } := by
  rw [exec_ecAugment_answer framed pending, answer, augmentBody_fail, finish_error rfl]

theorem exec_ecAugment_outOfPhase {s : State} (notFramed : s.phase ≠ .framed) :
    exec .ecAugment s = .next { s with err := .sequenceError, errInfo := s.cmdLatch, busy := false, stage := 0#3 } := by
  have refused : phaseOk .ecAugment s = false := by simp [phaseOk, notFramed]
  rw [exec, execEcAugment, ifPhase_of_not _ refused]

/-- Settles O31: in PHASE 2 an empty port takes the request, and a request out takes one of three answers. That the
request holds CW[0..8] is not used: the answer is RS of what was sent (R122). -/
theorem ecAugmentSendsAndTakesTheAnswer : Obligations.EcAugmentSendsAndTakesTheAnswer := by
  intro s
  refine ⟨?request, ?stored, ?layoutMismatch, ?rsFailure, exec_ecAugment_outOfPhase⟩
  case request =>
    intro framed noRequest
    refine ⟨⟨s.dataCodewords, Config.nec⟩, exec_ecAugment_request framed noRequest, rfl, ?inOrder⟩
    case inOrder =>
      intro k hk
      exact Vector.getElem_ofFn hk
  case stored =>
    intro req seq framed pending _ answer length
    obtain ⟨cs, asReturned, -⟩ := augmentBody_done length s
    exact ⟨cs, asReturned, exec_ecAugment_answered framed pending answer cs asReturned⟩
  case layoutMismatch =>
    intro req seq framed pending _
    exact exec_ecAugment_mismatch framed pending
  case rsFailure =>
    intro req e framed pending _
    exact exec_ecAugment_rsFailure framed pending

end Sys2Proof.Machine
end

section
/-! PROOFS. The format-information builder and the BCH(15,5) divider (43_format_info.md R130 to R133). -/

namespace Sys2Proof.Machine

/-- R133: BCH_REM has no phase precondition and no error of its own. -/
theorem exec_bchRem (d : BitVec 15) (s : State) : exec (.bchRem d) s = .next { s with
    bchResult := bchrem d, err := .none, errInfo := 0#32, busy := false, stage := 0#3 } := by
  have ok : phaseOk (.bchRem d) s = true := rfl
  rw [exec, execBchRem, ifPhase_of_ok _ ok]
  rfl

/-- Settles O33: BCH_REM stores BCHREM(d), and the division loop took only multiples of the generator from d. -/
theorem bchRemWritesThePolynomialRemainder : Obligations.BchRemWritesThePolynomialRemainder := by
  intro s d
  obtain ⟨q, isRemainder⟩ := bchrem_remainder d
  exact ⟨q, bchrem d, isRemainder, exec_bchRem d s⟩

/-- Settles O32: FORMAT_BUILD has no phase precondition, and its field is the constant of R132. -/
theorem formatBuildWritesTheConstantField : Obligations.FormatBuildWritesTheConstantField := by
  intro s
  have ok : phaseOk .formatBuild s = true := rfl
  rw [exec, execFormatBuild, ifPhase_of_ok _ ok, formatBuildBody_eq, finish_done]

end Sys2Proof.Machine
end

section
/-! PROOFS. The template and the zig-zag traversal (44_matrix_placer.md R141, R143 to R148). -/

namespace Sys2Proof.Machine

/-! ### The template (R141) -/

theorem tagCount_light : tagCount .light = 97 := by decide +kernel

theorem tagCount_dark : tagCount .dark = 106 := by decide +kernel

theorem tagCount_formatReserved : tagCount .formatReserved = 30 := by decide +kernel

theorem tag_column_six : ∀ r < 21, tag r 6 ≠ .dataSlot := by decide

/-- Settles O35: each count is over the 441 cells of the table. -/
theorem templateCountsAreThoseOfRuleOneHundredFortyOne :
    Obligations.TemplateCountsAreThoseOfRuleOneHundredFortyOne :=
  ⟨tagCount_light, tagCount_dark, tagCount_formatReserved, tagCount_dataSlot, tag_column_six⟩

/-! ### One step (R145) -/

namespace ZigZag

variable {z : ZigZag}

theorem step_of_right (right : z.sub = .right) : z.step = { z with sub := .left } := by
  simp [step, right]

theorem step_of_up (left : z.sub = .left) (up : z.dir = .up) (inside : 0 < z.row.toNat) :
    z.step = { z with sub := .right, row := z.row - 1#5 } := by
  simp [step, left, up, inside]

theorem step_of_down (left : z.sub = .left) (down : z.dir = .down) (inside : z.row.toNat < 20) :
    z.step = { z with sub := .right, row := z.row + 1#5 } := by
  simp [step, left, down, inside]

theorem step_of_boundary (left : z.sub = .left)
    (boundary : (z.dir = .up ∧ z.row.toNat = 0) ∨ (z.dir = .down ∧ z.row.toNat = 20)) :
    z.step = { z with sub := .right }.nextStrip := by
  obtain ⟨up, row⟩ | ⟨down, row⟩ := boundary
  · simp [step, left, up, row]
  · simp [step, left, down, row]

theorem nextStrip_of_last (last : z.rc.toNat = 1) : z.nextStrip = { z with ended := true } := by
  have rc : z.rc = 1#5 := BitVec.eq_of_toNat_eq last
  simp [nextStrip, rc]

theorem nextStrip_of_not_last (notLast : 2 ≤ z.rc.toNat) : z.nextStrip =
    { z with rc := if z.rc - 2#5 = 6#5 then 5#5 else z.rc - 2#5, dir := z.dir.opposite } := by
  have rc : z.rc ≠ 1#5 := by bv_omega
  simp [nextStrip, rc]

end ZigZag

theorem Dir.opposite_ne (d : Dir) : d.opposite ≠ d := by
  cases d <;> decide

/-- Two columns to the left, as a number: a 6 is met only from 8, and skipped. -/
theorem nextColumn_toNat {rc : BitVec 5} (h : 2 ≤ rc.toNat) :
    (if rc - 2#5 = 6#5 then 5#5 else rc - 2#5).toNat = if rc.toNat = 8 then 5 else rc.toNat - 2 := by
  have left : (rc - 2#5).toNat = rc.toNat - 2 := by bv_omega
  have six : rc - 2#5 = 6#5 ↔ rc.toNat = 8 := by bv_omega
  simp only [six, apply_ite BitVec.toNat, left]
  rfl

/-- Settles O37: by SUB, then by the row's place in the strip, then by RC. -/
theorem zigZagStepFollowsRuleOneHundredFortyFive : Obligations.ZigZagStepFollowsRuleOneHundredFortyFive := by
  intro z _ _ _ _
  refine ⟨ZigZag.step_of_right, ?up, ?down, fun left boundary => ⟨?ends, ?nextStrip⟩⟩
  case up =>
    intro left up inside
    exact ⟨_, ZigZag.step_of_up left up inside, by bv_omega⟩
  case down =>
    intro left down inside
    exact ⟨_, ZigZag.step_of_down left down inside, by bv_omega⟩
  case ends =>
    intro last
    exact (ZigZag.step_of_boundary left boundary).trans (ZigZag.nextStrip_of_last last)
  case nextStrip =>
    intro notLast
    exact ⟨_, _, (ZigZag.step_of_boundary left boundary).trans (ZigZag.nextStrip_of_not_last notLast),
      Dir.opposite_ne z.dir, nextColumn_toNat notLast⟩

/-! ### The walk (R147) -/

/-- The machine is closed and deterministic, so its 420 states are computed, each from the one before. -/
theorem ZigZag.iterate_start_pos : (List.iterate step start 420).map pos = walkPositions := by decide +kernel

theorem ZigZag.iterate_start_not_ended : ∀ z ∈ List.iterate step start 420, z.ended = false := by decide +kernel

theorem ZigZag.iterate_start_ended : (step^[420] start).ended = true := by decide +kernel

theorem length_stripPositions (strip : Nat × Dir) : (stripPositions strip).length = 42 := by
  obtain ⟨_, _ | _⟩ := strip <;> rfl

theorem mem_stripPositions {strip : Nat × Dir} {r c : Nat} :
    (r, c) ∈ stripPositions strip ↔ r < 21 ∧ (c = strip.1 ∨ c = strip.1 - 1) := by
  obtain ⟨rc, _ | _⟩ := strip <;> simp [stripPositions, ← and_or_left]

theorem length_walkPositions : walkPositions.length = 420 := by
  simp [walkPositions, length_stripPositions, stripTable]

theorem nodup_stripPositions : ∀ strip ∈ stripTable, (stripPositions strip).Nodup := by decide +kernel

theorem stripTable_columns : stripTable.Pairwise fun a b => b.1 < a.1 - 1 := by decide

/-- No position comes twice: not in one strip, and two strips share no column. -/
theorem nodup_walkPositions : walkPositions.Nodup := by
  refine List.nodup_flatMap.mpr ⟨nodup_stripPositions, stripTable_columns.imp ?disjoint⟩
  case disjoint =>
    intro a b columns
    rintro ⟨r, c⟩ inA inB
    rw [mem_stripPositions] at inA inB
    omega

/-- The ten strips are two columns wide, and only column 6 lies between two of them. -/
theorem mem_walkPositions {r c : Nat} (hr : r < 21) (hc : c < 21) : (r, c) ∈ walkPositions ↔ c ≠ 6 := by
  simp only [walkPositions, List.mem_flatMap, mem_stripPositions, stripTable, List.mem_cons, List.not_mem_nil, or_false,
    exists_eq_or_imp, exists_eq_left, hr, true_and]
  omega

theorem stripTable_dataSlots :
    stripTable.map (fun strip => (stripPositions strip).countP fun p => decide (tag p.1 p.2 = .dataSlot)) =
      [24, 24, 24, 24, 40, 40, 8, 8, 8, 8] := by decide +kernel

/-- Settles O36: the states of the walk as one list, and the strips of the table apart from the machine. -/
theorem zigZagWalksTheStripTable : Obligations.ZigZagWalksTheStripTable := by
  refine ⟨?positions, ?running, ZigZag.iterate_start_ended, length_walkPositions, nodup_walkPositions,
    fun _ _ => mem_walkPositions, stripTable_dataSlots⟩
  case positions =>
    rw [← ZigZag.iterate_start_pos, ← List.range_map_iterate, List.map_map]
    rfl
  case running =>
    intro k hk
    exact ZigZag.iterate_start_not_ended _ (List.mem_iterate.mpr ⟨k, hk, rfl⟩)

/-! ### The visit order (R148) -/

theorem visitOrder_first : visitOrder.take 3 = [(20, 20), (20, 19), (19, 20)] := by decide +kernel

theorem visitOrder_last : visitOrder[207]? = some (12, 0) := by decide +kernel

/-- Settles O38: V is the walk filtered by the tag DataSlot, and no DataSlot lies off the walk. -/
theorem visitOrderHoldsEveryDataSlotOnce : Obligations.VisitOrderHoldsEveryDataSlotOnce :=
  ⟨length_visitOrder, nodup_visitOrder,
    fun _ _ hr hc => ⟨visitOrder_dataSlot _, dataSlot_mem_visitOrder hr hc⟩, visitOrder_first, visitOrder_last⟩

end Sys2Proof.Machine
end

section
/-! PROOFS. The matrix placer (44_matrix_placer.md R149 to R151). -/

namespace Sys2Proof.Machine

/-- Placement index 8k + j carries bit 7 - j of CW[k] (R150). -/
theorem placementBit_at (cw : Vector Codeword 26) (k : Fin 26) {j : Nat} (hj : j < 8) :
    placementBit cw (8 * k.val + j) = cw[k].getLsbD (7 - j) := by
  have codeword : (8 * k.val + j) / 8 = k.val := by omega
  have bit : (8 * k.val + j) % 8 = j := by omega
  simp [placementBit, codeword, bit]

theorem initCell_light {r c : Nat} (x : Cell) (h : tag r c = .light) :
    initCell r c x = { filled := true, val := false } := by
  simp [initCell, h]

theorem initCell_dark {r c : Nat} (x : Cell) (h : tag r c = .dark) :
    initCell r c x = { filled := true, val := true } := by
  simp [initCell, h]

theorem initCell_formatReserved {r c : Nat} (x : Cell) (h : tag r c = .formatReserved) :
    (initCell r c x).filled = false := by
  simp [initCell, h]

theorem exec_place_outOfPhase {s : State} (notAugmented : s.phase ≠ .augmented) :
    exec .place s = .next { s with err := .sequenceError, errInfo := s.cmdLatch, busy := false, stage := 0#3 } := by
  have refused : phaseOk .place s = false := by simp [phaseOk, notAugmented]
  rw [exec, execPlace, ifPhase_of_not _ refused]

/-- Settles O39: the walk deposits the codewords' bits in the order V, and every other cell stays as the template
initialised it. -/
theorem placeDepositsEveryBitInVisitOrder : Obligations.PlaceDepositsEveryBitInVisitOrder := by
  intro s
  refine ⟨exec_place_outOfPhase, fun augmented => ⟨_, _, exec_place_augmented augmented, rfl, ?data, ?light, ?dark,
    ?formatReserved⟩⟩
  case data =>
    intro k j r c hj visited
    rw [cell_placeWalk_data s.cw s.matrix visited, placementBit_at s.cw k hj]
  case light =>
    intro r c hr hc light
    rw [cell_placeWalk_other s.cw s.matrix hr hc (by simp [light]), initCell_light _ light]
  case dark =>
    intro r c hr hc dark
    rw [cell_placeWalk_other s.cw s.matrix hr hc (by simp [dark]), initCell_dark _ dark]
  case formatReserved =>
    intro r c hr hc reserved
    rw [cell_placeWalk_other s.cw s.matrix hr hc (by simp [reserved]), initCell_formatReserved _ reserved]

end Sys2Proof.Machine
end

section
/-! PROOFS. The mask-pattern-3 applicator (45_masker.md R160 to R162). -/

namespace Sys2Proof.Machine

theorem exec_mask_outOfPhase {s : State} (notPlaced : s.phase ≠ .placed) (notMasked : s.phase ≠ .masked) :
    exec .mask s = .next { s with err := .sequenceError, errInfo := s.cmdLatch, busy := false, stage := 0#3 } := by
  have refused : phaseOk .mask s = false := by simp [phaseOk, notPlaced, notMasked]
  rw [exec, execMask, ifPhase_of_not _ refused]

/-- MASK's phase is one that MASK accepts again (R161). -/
theorem phase_after_mask (p : Phase) : (if p = .placed then Phase.masked else .placed) = .placed ∨
    (if p = .placed then Phase.masked else .placed) = .masked := by
  by_cases placed : p = .placed <;> simp [placed]

/-- MASK moves PHASE between 4 and 5, so a second one moves it back (R161). -/
theorem phase_after_two_masks {p : Phase} (h : p = .placed ∨ p = .masked) :
    (if (if p = .placed then Phase.masked else .placed) = .placed then Phase.masked else .placed) = p := by
  obtain rfl | rfl := h <;> rfl

/-- A cell of FLIP does not keep its VAL (R161). -/
theorem cell_mask_ne (m : SymbolMatrix) {r c : Nat} (hr : r < 21) (hc : c < 21) (slot : tag r c = .dataSlot)
    (pattern : (r + c) % 3 = 0) : (m.mapCells maskCell).cell r c ≠ m.cell r c := by
  rw [cell_mask m hr hc, if_pos ⟨slot, pattern⟩]
  intro same
  exact Bool.not_ne_self _ (congrArg Cell.val same)

/-- Settles O40: out of PHASE 4 and 5 MASK is refused, and in them it maps the cells by the flip set. -/
theorem maskTogglesExactlyTheFlipSet : Obligations.MaskTogglesExactlyTheFlipSet := fun s =>
  ⟨exec_mask_outOfPhase, fun inPhase =>
    ⟨s.matrix.mapCells maskCell, exec_mask_placed inPhase, fun _ _ hr hc => cell_mask s.matrix hr hc⟩⟩

/-- Settles O41: the second MASK meets its precondition, and both the cell map and the phase toggle are involutions. -/
theorem maskTwiceRestoresTheMatrix : Obligations.MaskTwiceRestoresTheMatrix := by
  intro s inPhase
  refine ⟨_, exec_mask_placed inPhase, ?twice, fun _ _ => cell_mask_ne s.matrix⟩
  case twice =>
    rw [exec_mask_placed (phase_after_mask s.phase)]
    simp only [mask_mask, phase_after_two_masks inPhase]

end Sys2Proof.Machine
end

section
/-! PROOFS. The format embedder (46_format_embedder.md R171 to R173). -/

namespace Sys2Proof.Machine

/-! ### The tables of R172 and R173, run by run -/

theorem formatBitAt_row_left {c : Nat} (h : c < 6) : formatBitAt 8 c = some (14 - c) := by
  rw [formatBitAt, if_pos rfl, if_pos (by omega)]

theorem formatBitAt_row_right {i : Nat} (h : i < 8) : formatBitAt 8 (13 + i) = some (7 - i) := by
  have range : 13 ≤ 13 + i ∧ 13 + i ≤ 20 := by omega
  have bit : 20 - (13 + i) = 7 - i := by omega
  rw [formatBitAt, if_pos rfl, if_neg (by omega), if_neg (by omega), if_neg (by omega), if_pos range, bit]

theorem formatBitAt_column_top {j : Nat} (h : j < 6) : formatBitAt j 8 = some j := by
  rw [formatBitAt, if_neg (by omega), if_pos rfl, if_pos (by omega)]

theorem formatBitAt_column_bottom {i : Nat} (h : i < 7) : formatBitAt (14 + i) 8 = some (8 + i) := by
  have range : 14 ≤ 14 + i ∧ 14 + i ≤ 20 := by omega
  have bit : 14 + i - 6 = 8 + i := by omega
  rw [formatBitAt, if_neg (by omega), if_pos rfl, if_neg (by omega), if_neg (by omega), if_pos range, bit]

/-! ### The command -/

/-- A cell that the tables name is filled with its bit of FMT. -/
theorem cell_embedFormat_of_formatBitAt (fmt : BitVec 15) (m : SymbolMatrix) {r c k : Nat} (hr : r < 21) (hc : c < 21)
    (h : formatBitAt r c = some k) : (embedFormat fmt m).cell r c = { filled := true, val := fmt.getLsbD k } := by
  rw [cell_embedFormat fmt m hr hc, h]

theorem exec_formatEmbed_outOfPhase {s : State} (notReady : ¬(s.phase = .masked ∧ s.fmtValid = true)) :
    exec .formatEmbed s = .next { s with
      err := .sequenceError, errInfo := s.cmdLatch, busy := false, stage := 0#3 } := by
  have refused : phaseOk .formatEmbed s = false := decide_eq_false notReady
  rw [exec, execFormatEmbed, ifPhase_of_not _ refused]

/-- Settles O42: each run of the tables gives its cells' bits of FMT, and a cell that no run names is kept. -/
theorem formatEmbedWritesBothCopies : Obligations.FormatEmbedWritesBothCopies := by
  intro s
  have written {r c k : Nat} := cell_embedFormat_of_formatBitAt s.fmt s.matrix (r := r) (c := c) (k := k)
  refine ⟨exec_formatEmbed_outOfPhase, fun masked valid => ⟨_, exec_formatEmbed_masked masked valid, ?rowLeft, ?rowSeven,
    ?corner, ?rowRight, ?columnTop, ?columnSeven, ?columnBottom, ?others⟩⟩
  case rowLeft => exact fun c hc => written (by decide) (by omega) (formatBitAt_row_left hc)
  case rowSeven => exact written (by decide) (by decide) rfl
  case corner => exact written (by decide) (by decide) rfl
  case rowRight => exact fun i hi => written (by decide) (by omega) (formatBitAt_row_right hi)
  case columnTop => exact fun j hj => written (by omega) (by decide) (formatBitAt_column_top hj)
  case columnSeven => exact written (by decide) (by decide) rfl
  case columnBottom => exact fun i hi => written (by omega) (by decide) (formatBitAt_column_bottom hi)
  case others => exact fun r c hr hc => cell_embed_of_not_reserved s.fmt s.matrix hr hc

end Sys2Proof.Machine
end

section
/-! PROOFS. Encoding and decoding are inverse (30_encoding.md R70 to R72). -/

namespace Sys2Proof

/-- Every operand is in the range of its type (R50, R71). -/
theorem Instr.wellFormed_all (i : Instr) : i.wellFormed = true := by
  cases i with
  | bchRem d => exact decide_eq_true d.isLt
  | rd a => exact decide_eq_true a.isLt
  | wr a v => exact Bool.and_eq_true_iff.mpr ⟨decide_eq_true a.isLt, decide_eq_true v.isLt⟩
  | _ => rfl

/-- A command's word decodes to it: RSV is 0, and its operand is 0 outside BCH_REM (R71, R72). -/
theorem decode_cmdWord {op : BitVec 8} {opnd : BitVec 15} {i : Instr} (command : commandOf op opnd = some i)
    (operand : op ≠ 0x09#8 → opnd = 0#15) : decode (cmdWord op opnd) = .ok i := by
  rw [decode_ok_iff, fieldsOf_cmdWord]
  exact ⟨command, rfl, operand⟩

/-- Settles O2: by the row of R71 that the instruction has, or by the bus operation that it is. -/
theorem decodeOfEncodeIsTheInstruction : Obligations.DecodeOfEncodeIsTheInstruction := by
  intro i _
  cases i with
  | bchRem d => exact decode_cmdWord rfl (absurd rfl)
  | rd a => exact .inl ⟨a, rfl⟩
  | wr a v => exact .inr ⟨a, v, rfl⟩
  | _ => exact decode_cmdWord rfl fun _ => rfl

/-- Settles O3: a word is its three fields, and decoding leaves only the opcode and the operand free. -/
theorem decodedWordIsTheEncodedWord : Obligations.DecodedWordIsTheEncodedWord := by
  intro w i decoded
  obtain ⟨command, reserved, operand⟩ := (decode_ok_iff w i).mp decoded
  have word : w = cmdWord (fieldsOf w).op (fieldsOf w).opnd := by rw [cmdWord, ← reserved, ← word_eq_fields]
  exact ⟨(encode_of_commandOf command operand).trans (congrArg some word.symm), i.wellFormed_all⟩

end Sys2Proof
end

section
/-! PROOFS. What the move of a command leaves and keeps (20_memory.md R57, 60_exceptions.md R205), and ENCODE as its seven
stages (47_pipeline_control.md R181). -/

namespace Sys2Proof.Machine

/-! ### The states that commands leave -/

/-- After an ALNUM_ENCODE of a valid input that fits (R101). -/
def afterAlnumEncode (s : State) : State :=
  { afterFront s s.cw with phase := .encoded, err := .none, errInfo := 0#32, busy := false, stage := 0#3 }

/-- After an EC_AUGMENT that the collaborator answered with 26 codewords (R123, R126). -/
def afterAugment (cs : Vector Codeword 26) (s : State) : State :=
  { s with
    cw := cs, phase := .augmented, err := .none, errInfo := 0#32, rsPort := none, busy := false, stage := 0#3 }

/-- After FORMAT_BUILD (R131, R132). -/
def afterFormatBuild (s : State) : State :=
  { s with fmt := 0x19D0#15, fmtValid := true, err := .none, errInfo := 0#32, busy := false, stage := 0#3 }

/-- After PLACE (R149). -/
def afterPlace (s : State) : State :=
  { s with
    matrix := (placeWalk s.cw s.matrix).matrix
    zig := { rc := 1#5, row := 20#5, dir := .down, sub := .right, ended := true }
    bidx := 208#8, phase := .placed, err := .none, errInfo := 0#32, busy := false, stage := 0#3 }

/-- After MASK (R161). -/
def afterMask (s : State) : State :=
  { s with
    matrix := s.matrix.mapCells maskCell, phase := if s.phase = .placed then .masked else .placed,
    err := .none, errInfo := 0#32, busy := false, stage := 0#3 }

/-- After FORMAT_EMBED (R171). -/
def afterFormatEmbed (s : State) : State :=
  { s with
    matrix := embedFormat s.fmt s.matrix, phase := .embedded,
    err := .none, errInfo := 0#32, busy := false, stage := 0#3 }

/-- R181: the state ENCODE ends in is the one its seven stages leave, one after another. -/
theorem afterEncode_eq_stages (s : State) (cs : Vector Codeword 26) : afterEncode s cs =
    afterFormatEmbed (afterMask (afterPlace (afterFormatBuild (afterAugment cs (afterFrame (afterAlnumEncode s)))))) := by
  simp only [afterEncode, afterFormatEmbed, afterMask, afterPlace, afterFormatBuild, afterAugment, afterFrame,
    afterAlnumEncode, afterFront, if_true]

/-! ### How a move ends -/

/-- A command has ended: BUSY and STAGE are 0 (R180), and ERR_INFO is 0 where ERR is (R26, R205). -/
structure State.Ended (s : State) : Prop where
  busy : s.busy = false
  stage : s.stage = 0#3
  noInfo : s.err = .none → s.errInfo = 0#32

/-- A stage error is an error, so it leaves ERR_INFO free (R202). -/
theorem ErrCode.ne_none_of_isStageError {e : ErrCode} (h : e.isStageError = true) : e ≠ .none := by
  rintro rfl
  exact Bool.false_ne_true h

theorem afterStageError_ended (s : State) {e : ErrCode} (info : Word) (he : e.isStageError = true) :
    (afterStageError s e info).Ended :=
  ⟨rfl, rfl, fun h => absurd h (ErrCode.ne_none_of_isStageError he)⟩

/-- A move ends its command, or EC_AUGMENT or ENCODE sends its request and waits (R122). -/
theorem CommandEffect.ended_or_waits {i : Instr} {s t : State} (effect : CommandEffect i s t) :
    t.Ended ∨ (i = .ecAugment ∨ i = .encode) ∧ t.phase = s.phase := by
  obtain ⟨-, rfl⟩ | ⟨e, info, he, rfl⟩ | ⟨-, -, -, rfl⟩ | ⟨-, -, rfl⟩ | ⟨rfl, -, -, rfl⟩ |
    ⟨-, -, _, _, -, -, rfl⟩ | ⟨-, rfl⟩ | ⟨-, -, rfl⟩ | ⟨-, -, rfl⟩ | ⟨-, -, -, rfl⟩ | ⟨rfl, -, -, -, rfl⟩ |
    ⟨-, -, -, _, _, -, -, rfl⟩ | ⟨-, -, -, e, info, _, he, rfl⟩ | ⟨_, -, rfl⟩ | ⟨-, rfl⟩ := effect
  · exact .inl ⟨rfl, rfl, nofun⟩ -- SEQUENCE_ERROR
  · exact .inl (afterStageError_ended s info he) -- a stage error
  · exact .inl ⟨rfl, rfl, fun _ => rfl⟩ -- ALNUM_ENCODE
  · exact .inl ⟨rfl, rfl, fun _ => rfl⟩ -- FRAME
  · exact .inr ⟨.inl rfl, rfl⟩ -- EC_AUGMENT's request
  · exact .inl ⟨rfl, rfl, fun _ => rfl⟩ -- EC_AUGMENT's end
  · exact .inl ⟨rfl, rfl, fun _ => rfl⟩ -- FORMAT_BUILD
  · exact .inl ⟨rfl, rfl, fun _ => rfl⟩ -- PLACE
  · exact .inl ⟨rfl, rfl, fun _ => rfl⟩ -- MASK
  · exact .inl ⟨rfl, rfl, fun _ => rfl⟩ -- FORMAT_EMBED
  · exact .inr ⟨.inr rfl, rfl⟩ -- ENCODE's request
  · exact .inl ⟨rfl, rfl, fun _ => rfl⟩ -- ENCODE's end
  · exact .inl (afterStageError_ended _ info he) -- ENCODE's end, in stage 3
  · exact .inl ⟨rfl, rfl, fun _ => rfl⟩ -- BCH_REM
  · exact .inl ⟨rfl, rfl, fun _ => rfl⟩ -- CLEAR

/-- What no command writes: the input (R27), the collaborator (R122), and the moves to come. -/
structure State.SameSurroundings (s t : State) : Prop where
  inLen : t.inLen = s.inLen
  inChar : t.inChar = s.inChar
  rsTable : t.rsTable = s.rsTable
  inputs : t.inputs = s.inputs

theorem CommandEffect.sameSurroundings {i : Instr} {s t : State} (effect : CommandEffect i s t) :
    s.SameSurroundings t := by
  obtain ⟨-, rfl⟩ | ⟨_, _, -, rfl⟩ | ⟨-, -, -, rfl⟩ | ⟨-, -, rfl⟩ | ⟨-, -, -, rfl⟩ |
    ⟨-, -, _, _, -, -, rfl⟩ | ⟨-, rfl⟩ | ⟨-, -, rfl⟩ | ⟨-, -, rfl⟩ | ⟨-, -, -, rfl⟩ | ⟨-, -, -, -, rfl⟩ |
    ⟨-, -, -, _, _, -, -, rfl⟩ | ⟨-, -, -, _, _, _, -, rfl⟩ | ⟨_, -, rfl⟩ | ⟨-, rfl⟩ := effect
  all_goals exact ⟨rfl, rfl, rfl, rfl⟩

/-! ### The command in CMD_LATCH -/

/-- R202 (b), from every state. -/
theorem State.refuse_eq {s : State} {e : ErrCode} (he : e.isStageError = false) :
    s.refuse e = { s with err := e, errInfo := s.cmdLatch, busy := false, stage := 0#3 } := by
  simp [State.refuse, State.raise, he, State.complete]

/-- The move of the command in CMD_LATCH is the decoded command's, or the word is refused. -/
theorem runCommand_cases {s t : State} (run : runCommand s = .next t) :
    (∃ i, decode s.cmdLatch = .ok i ∧ CommandEffect i s t) ∨
      (¬∃ i, decode s.cmdLatch = .ok i) ∧
        t = { s with err := .illegalCommand, errInfo := s.cmdLatch, busy := false, stage := 0#3 } := by
  by_cases decodes : ∃ i, decode s.cmdLatch = .ok i
  · obtain ⟨i, decoded⟩ := decodes
    rw [runCommand_of_decode_ok decoded] at run
    exact .inl ⟨i, decoded, exec_next_cases run (fun _ rd => decode_ne_rd (rd ▸ decoded))
      fun _ _ wr => decode_ne_wr (wr ▸ decoded)⟩
  · rw [runCommand_of_no_decode decodes, State.refuse_eq rfl] at run
    cases run
    exact .inr ⟨decodes, rfl⟩

/-- A command answers a next state, from every state (60_exceptions.md R201). -/
theorem exec_answers {i : Instr} (s : State) (notWr : ∀ a v, i ≠ .wr a v) : ∃ t, exec i s = .next t := by
  cases i with
  | wr a v => exact absurd rfl (notWr a v)
  | _ => exact ⟨_, rfl⟩

/-- Settles O18: a command answers, and of those only EC_AUGMENT and ENCODE can answer a state in which they wait. -/
theorem commandsThatDoNotWaitEndInOneMove : Obligations.CommandsThatDoNotWaitEndInOneMove := by
  intro s i notAugment notEncode notRd notWr
  obtain ⟨t, answer⟩ := exec_answers s notWr
  have effect := exec_next_cases answer notRd notWr
  have kept := effect.sameSurroundings
  obtain ended | ⟨augment | encode, -⟩ := effect.ended_or_waits
  · exact ⟨t, answer, ended.busy, ended.stage, kept.rsTable, kept.inputs, ended.noInfo⟩
  · exact absurd augment notAugment
  · exact absurd encode notEncode

/-! ### A host write -/

/-- What a host write can do: start a command, or write the input, or nothing (R53, R55). -/
theorem hostWrite_cases (s : State) (a : Addr) (v : Word) :
    (a = 0x000#12 ∧ s.hostWrite a v = s.startCommand v) ∨
      ∃ len chars, s.hostWrite a v = { s with inLen := len, inChar := chars } := by
  unfold State.hostWrite
  split
  case h_1 cmd => exact .inl ⟨BitVec.eq_of_toNat_eq (regAt_eq_some_iff.mp cmd), rfl⟩
  all_goals exact .inr ⟨_, _, rfl⟩

end Sys2Proof.Machine
end

section
/-! PROOFS. The step: which move it makes (20_memory.md R59), what each move can change, and runs of steps. -/

namespace Sys2Proof.Machine

variable {s : State}

/-! ### The block's move and the collaborator's answer (R122, R183, R221) -/

theorem blockMove_of_running (busy : s.busy = true) (port : s.rsPort = none) : blockMove s = runCommand s := by
  simp [blockMove, busy, State.rsPending, port]

theorem blockMove_of_idle (idle : s.busy = false) : blockMove s = .next s := by
  simp [blockMove, idle]

theorem blockMove_of_pending {req : RsRequest} (pending : s.rsPort = some req) : blockMove s = .next s := by
  simp [blockMove, State.rsPending, pending]

theorem answerMove_of_pending {req : RsRequest} (busy : s.busy = true) (pending : s.rsPort = some req) :
    answerMove s = runCommand s := by
  simp [answerMove, busy, State.rsPending, pending]

theorem answerMove_of_no_request (port : s.rsPort = none) : answerMove s = .next s := by
  simp [answerMove, State.rsPending, port]

/-! ### The step makes the listed move -/

theorem step_of_nil (listed : s.inputs = []) : step s = blockMove s := by
  simp [step, listed]

theorem step_of_cons {input : Input} {rest : List Input} (listed : s.inputs = input :: rest) :
    step s = move input { s with inputs := rest } := by
  simp [step, listed]

/-- Settles O5: the move listed, and for a command the move that BUSY and the port leave to it. -/
theorem stepRunsTheDecodedInstruction : Obligations.StepRunsTheDecodedInstruction := by
  intro s rest
  refine ⟨?block, ?answer, ?unlisted, fun a listed => step_of_cons listed, fun a v listed => step_of_cons listed⟩
  case block =>
    intro i listed busy port decoded
    calc step s = blockMove { s with inputs := rest } := step_of_cons listed
      _ = runCommand { s with inputs := rest } := blockMove_of_running busy port
      _ = exec i { s with inputs := rest } := runCommand_of_decode_ok decoded
  case answer =>
    intro i req listed busy pending decoded
    calc step s = answerMove { s with inputs := rest } := step_of_cons listed
      _ = runCommand { s with inputs := rest } := answerMove_of_pending busy pending
      _ = exec i { s with inputs := rest } := runCommand_of_decode_ok decoded
  case unlisted =>
    intro listed busy port
    exact (step_of_nil listed).trans (blockMove_of_running busy port)

/-- R23: a write to CMD outside BUSY. -/
theorem step_of_command_write {w : Word} {rest : List Input} (idle : s.busy = false)
    (listed : s.inputs = .wr 0x000#12 w :: rest) :
    step s = .next { s with inputs := rest, cmdLatch := w, busy := true } :=
  (step_of_cons listed).trans (exec_wr_of_not_busy _ _ idle)

/-- Settles O6: the write starts the command, and the block's move runs what CMD_LATCH then holds. -/
theorem commandCycleRunsTheWrittenWord : Obligations.CommandCycleRunsTheWrittenWord := by
  intro s w i rest idle port listed decoded
  refine (run_two (step_of_command_write idle listed)).trans ?_
  calc step { s with inputs := .block :: rest, cmdLatch := w, busy := true }
    _ = blockMove { s with inputs := rest, cmdLatch := w, busy := true } := rfl
    _ = runCommand { s with inputs := rest, cmdLatch := w, busy := true } := blockMove_of_running rfl port
    _ = exec i { s with inputs := rest, cmdLatch := w, busy := true } := runCommand_of_decode_ok decoded

/-- Settles O7: neither move runs the command, so the step only takes it from the list. -/
theorem idleAndWaitingBlockStaysAsItIs : Obligations.IdleAndWaitingBlockStaysAsItIs := by
  intro s rest
  refine ⟨?idle, ?waiting, ?noRequest⟩
  case idle =>
    intro listed idle
    exact (step_of_cons listed).trans (blockMove_of_idle idle)
  case waiting =>
    intro req listed pending
    exact (step_of_cons listed).trans (blockMove_of_pending pending)
  case noRequest =>
    intro listed port
    exact (step_of_cons listed).trans (answerMove_of_no_request port)

/-! ### When a step stops (R206, R226) -/

theorem runCommand_answers (s : State) : ∃ t, runCommand s = .next t := by
  by_cases decodes : ∃ i, decode s.cmdLatch = .ok i
  · obtain ⟨i, decoded⟩ := decodes
    rw [runCommand_of_decode_ok decoded]
    exact exec_answers s fun _ _ wr => decode_ne_wr (wr ▸ decoded)
  · exact ⟨_, runCommand_of_no_decode decodes⟩

theorem blockMove_answers (s : State) : ∃ t, blockMove s = .next t := by
  unfold blockMove
  split
  · exact runCommand_answers s
  · exact ⟨s, rfl⟩

theorem answerMove_answers (s : State) : ∃ t, answerMove s = .next t := by
  unfold answerMove
  split
  · exact runCommand_answers s
  · exact ⟨s, rfl⟩

/-- Settles O8: a write outside BUSY answers like every other move. -/
theorem onlyAHostWriteWhileBusyStops : Obligations.OnlyAHostWriteWhileBusyStops := by
  intro s
  constructor
  · rintro ⟨busy, a, v, rest, listed⟩
    exact (step_of_cons listed).trans (exec_wr_of_busy a v busy)
  · intro lawful
    cases listed : s.inputs with
    | nil =>
      rw [step_of_nil listed]
      exact blockMove_answers s
    | cons input rest =>
      rw [step_of_cons listed]
      cases input with
      | rd a => exact ⟨_, rfl⟩
      | wr a v =>
        have idle : s.busy = false := by
          rw [← Bool.not_eq_true]
          exact fun busy => lawful ⟨busy, a, v, rest, listed⟩
        exact ⟨_, exec_wr_of_not_busy a v idle⟩
      | block => exact blockMove_answers _
      | answer => exact answerMove_answers _
      | reset => exact ⟨_, rfl⟩

/-! ### Reset (R220) -/

/-- R220 in a run: the reset values do not depend on the fields that go on. -/
theorem State.resetFrom_hasResetValues (s : State) : s.resetFrom.HasResetValues :=
  { State.resetAt_hasResetValues s.draws with }

/-- Settles O9: a reset does not look at the block. -/
theorem resetAtAnyTimeGivesTheResetValues : Obligations.ResetAtAnyTimeGivesTheResetValues := by
  intro s rest listed
  exact ⟨_, step_of_cons listed, State.resetFrom_hasResetValues _, rfl, rfl⟩

/-! ### What a step keeps -/

/-- A host write leaves everything but the latch, BUSY and the input (R53). -/
theorem State.hostWrite_phase (s : State) (a : Addr) (v : Word) : (s.hostWrite a v).phase = s.phase := by
  obtain ⟨-, written⟩ | ⟨_, _, written⟩ := hostWrite_cases s a v
  all_goals simp [written]

theorem State.hostWrite_rsTable (s : State) (a : Addr) (v : Word) : (s.hostWrite a v).rsTable = s.rsTable := by
  obtain ⟨-, written⟩ | ⟨_, _, written⟩ := hostWrite_cases s a v
  all_goals simp [written]

/-- Settles O19: a step without a host write or a reset is a read, no move, or a command's. -/
theorem onlyTheHostWritesTheInputBuffer : Obligations.OnlyTheHostWritesTheInputBuffer := by
  intro s t next noWrite noReset
  obtain ⟨a, rest, -, read⟩ | ⟨a, v, rest, write, -⟩ | ⟨rest, reset, -⟩ | ⟨rest, rfl⟩ | ⟨rest, -, run, -⟩ :=
    step_next_cases next
  · cases read
    exact ⟨rfl, rfl⟩
  · exact absurd write (noWrite a v rest)
  · exact absurd reset (noReset rest)
  · exact ⟨rfl, rfl⟩
  · obtain ⟨i, -, effect⟩ | ⟨-, rfl⟩ := runCommand_cases run
    · have kept := effect.sameSurroundings
      exact ⟨kept.inLen, kept.inChar⟩
    · exact ⟨rfl, rfl⟩

/-- No move of any agent writes the collaborator's table (R122). -/
theorem step_rsTable {t : State} (next : step s = .next t) : t.rsTable = s.rsTable := by
  obtain ⟨a, rest, -, read⟩ | ⟨a, v, rest, -, -, rfl⟩ | ⟨rest, -, rfl⟩ | ⟨rest, rfl⟩ | ⟨rest, -, run, -⟩ :=
    step_next_cases next
  · cases read
    rfl
  · exact State.hostWrite_rsTable _ a v
  · rfl
  · rfl
  · obtain ⟨i, -, effect⟩ | ⟨-, rfl⟩ := runCommand_cases run
    · exact effect.sameSurroundings.rsTable
    · rfl

/-- A run of one step more makes that step first. -/
theorem run_succ {M : Host.Core} {s t : M.State} (k : Nat) (next : M.step s = .next t) :
    M.run (k + 1) s = M.run k t := by
  rw [Host.Core.run, next]

/-- A run that answers has answered at its first step. -/
theorem run_succ_next {M : Host.Core} {s t : M.State} {k : Nat} (run : M.run (k + 1) s = .next t) :
    ∃ u, M.step s = .next u ∧ M.run k u = .next t := by
  unfold Host.Core.run at run
  split at run
  case h_1 u first => exact ⟨u, first, run⟩
  all_goals cases run

theorem run_rsTable {t : State} {k : Nat} (run : Sys2Proof.core.run k s = .next t) : t.rsTable = s.rsTable := by
  induction k generalizing s with
  | zero =>
    cases run
    rfl
  | succ k ih =>
    obtain ⟨u, first, rest⟩ := run_succ_next run
    exact (ih rest).trans (step_rsTable first)

/-- Settles O20: the answers are those of the table, which no step of the run writes. -/
theorem collaboratorIsTheSameFunctionForEver : Obligations.CollaboratorIsTheSameFunctionForEver := by
  intro s t k run data
  rw [State.rsAnswer, State.rsAnswer, run_rsTable run]

/-- A block that waits makes no move of its own, and a read moves nothing of it (R52, R122). -/
theorem step_of_waiting {req : RsRequest} (busy : s.busy = true) (pending : s.rsPort = some req)
    (noAnswer : ∀ x ∈ s.inputs, x = .block ∨ ∃ a, x = .rd a) :
    ∃ t, step s = .next t ∧ t.busy = true ∧ t.rsPort = some req ∧ ∀ x ∈ t.inputs, x = .block ∨ ∃ a, x = .rd a := by
  cases listed : s.inputs with
  | nil => exact ⟨s, (step_of_nil listed).trans (blockMove_of_pending pending), busy, pending, noAnswer⟩
  | cons input rest =>
    have restNoAnswer : ∀ x ∈ rest, x = .block ∨ ∃ a, x = .rd a := fun x hx => noAnswer x (by simp [listed, hx])
    obtain rfl | ⟨a, rfl⟩ := noAnswer input (by simp [listed])
    · exact ⟨_, (step_of_cons listed).trans (blockMove_of_pending pending), busy, pending, restNoAnswer⟩
    · exact ⟨_, step_of_cons listed, busy, pending, restNoAnswer⟩

/-- Settles O21: by induction on the number of steps. -/
theorem withoutAnAnswerTheBlockStaysBusy : Obligations.WithoutAnAnswerTheBlockStaysBusy := by
  intro k
  induction k with
  | zero =>
    intro s req busy pending _
    exact ⟨s, rfl, busy, pending⟩
  | succ k ih =>
    intro s req busy pending noAnswer
    obtain ⟨t, first, busy, pending, noAnswer⟩ := step_of_waiting busy pending noAnswer
    obtain ⟨u, run, busy, pending⟩ := ih t req busy pending noAnswer
    exact ⟨u, (run_succ (M := Sys2Proof.core) k first).trans run, busy, pending⟩

/-! ### PHASE (R25) -/

/-- R25: how PHASE can stand after a command that changes it. -/
theorem CommandEffect.phase_cases {i : Instr} {s t : State} (effect : CommandEffect i s t) (changed : t.phase ≠ s.phase) :
    (t.err = .none ∧ i = .alnumEncode ∧ t.phase = .encoded) ∨
      (t.err = .none ∧ i = .frame ∧ s.phase = .encoded ∧ t.phase = .framed) ∨
      (t.err = .none ∧ i = .ecAugment ∧ s.phase = .framed ∧ t.phase = .augmented) ∨
      (t.err = .none ∧ i = .place ∧ s.phase = .augmented ∧ t.phase = .placed) ∨
      (t.err = .none ∧ i = .mask ∧ s.phase = .placed ∧ t.phase = .masked) ∨
      (t.err = .none ∧ i = .mask ∧ s.phase = .masked ∧ t.phase = .placed) ∨
      (t.err = .none ∧ i = .formatEmbed ∧ s.phase = .masked ∧ t.phase = .embedded) ∨
      (t.err = .none ∧ i = .encode ∧ t.phase = .embedded) ∨
      (t.err = .none ∧ i = .clear ∧ t.phase = .idle) ∨
      (t.err.isStageError = true ∧ t.phase = .idle) := by
  obtain ⟨-, rfl⟩ | ⟨e, info, he, rfl⟩ | ⟨rfl, -, -, rfl⟩ | ⟨rfl, encoded, rfl⟩ | ⟨-, -, -, rfl⟩ |
    ⟨rfl, framed, _, _, -, -, rfl⟩ | ⟨-, rfl⟩ | ⟨rfl, augmented, rfl⟩ | ⟨rfl, placed | masked, rfl⟩ |
    ⟨rfl, masked, -, rfl⟩ | ⟨-, -, -, -, rfl⟩ | ⟨rfl, -, -, _, _, -, -, rfl⟩ | ⟨rfl, -, -, e, info, _, he, rfl⟩ |
    ⟨_, -, rfl⟩ | ⟨rfl, rfl⟩ := effect
  · exact absurd rfl changed -- SEQUENCE_ERROR
  · simp [afterStageError, he]
  · simp
  · simp [encoded, afterFrame]
  · exact absurd rfl changed -- EC_AUGMENT's request
  · simp [framed]
  · exact absurd rfl changed -- FORMAT_BUILD
  · simp [augmented]
  · simp [placed]
  · simp [masked]
  · simp [masked]
  · exact absurd rfl changed -- ENCODE's request
  · simp [afterEncode]
  · simp [afterStageError, he]
  · exact absurd rfl changed -- BCH_REM
  · simp

/-- Settles O17: only a reset and a command's move change PHASE, and a move that only sends a request does not. -/
theorem onlyListedCommandsChangePhase : Obligations.OnlyListedCommandsChangePhase := by
  intro s t next changed
  obtain ⟨a, rest, -, read⟩ | ⟨a, v, rest, -, -, rfl⟩ | ⟨rest, reset, rfl⟩ | ⟨rest, rfl⟩ | ⟨rest, busy, run, -⟩ :=
    step_next_cases next
  · cases read
    exact absurd rfl changed
  · exact absurd (State.hostWrite_phase _ a v) changed
  · exact .inl ⟨rest, reset, rfl⟩
  · exact absurd rfl changed
  · obtain ⟨i, decoded, effect⟩ | ⟨-, rfl⟩ := runCommand_cases run
    · obtain ended | ⟨-, samePhase⟩ := effect.ended_or_waits
      · exact .inr ⟨i, decoded, busy, ended.busy, effect.phase_cases changed⟩
      · exact absurd samePhase changed
    · exact absurd rfl changed

end Sys2Proof.Machine
end

section
/-! PROOFS. Host reads (20_memory.md R52, R55, R58; 10_state.md R24, R30). -/

namespace Sys2Proof.Machine

variable {s : State} {a : Addr}

/-! ### The STATUS word (R24) -/

/-- Two fields side by side, as a number. -/
theorem toNat_append_eq_add {m n : Nat} (x : BitVec m) (y : BitVec n) :
    (x ++ y).toNat = x.toNat * 2 ^ n + y.toNat := by
  rw [BitVec.toNat_append, ← Nat.shiftLeft_add_eq_or_of_lt y.isLt, Nat.shiftLeft_eq]

/-- STATUS as a number: its fields side by side. -/
theorem State.status_toNat (s : State) : s.status.toNat =
    s.fmtValid.toNat * 128 + s.phase.code.toNat * 16 + s.err.code.toNat * 2 + s.busy.toNat := by
  simp only [State.status, toNat_append_eq_add, BitVec.toNat_ofNat, BitVec.toNat_ofBool]
  omega

/-- Settles O15: each field is cut out of the sum by its place. -/
theorem statusFieldsStandWhereRuleTwentyFourPutsThem : Obligations.StatusFieldsStandWhereRuleTwentyFourPutsThem := by
  intro s
  have err : s.err.code.toNat < 8 := s.err.code.isLt
  have phase : s.phase.code.toNat < 8 := s.phase.code.isLt
  have busy := s.busy.toNat_lt
  have fmtValid := s.fmtValid.toNat_lt
  have word := s.status_toNat
  refine ⟨?busy, ?err, ?phase, ?fmtValid, by omega⟩
  case busy =>
    have field : s.status.toNat % 2 = s.busy.toNat := by omega
    rw [BitVec.getLsbD, Nat.testBit_zero, field]
    cases s.busy <;> rfl
  case err =>
    have field : s.status.toNat / 2 % 8 = s.err.code.toNat := by omega
    rw [field]
    cases s.err <;> rfl
  case phase =>
    have field : s.status.toNat / 16 % 8 = s.phase.code.toNat := by omega
    rw [field]
    cases s.phase <;> rfl
  case fmtValid =>
    have field : s.status.toNat / 2 ^ 7 % 2 = s.fmtValid.toNat := by omega
    rw [BitVec.getLsbD, Nat.testBit_eq_decide_div_mod_eq, field]
    cases s.fmtValid <;> rfl

/-! ### A read outside BUSY -/

theorem exec_rd_of_busy (busy : s.busy = true) : exec (.rd a) s = .next { s with
    readData := if regAt a = some .status then statusWhileBusy s.nextDraw else s.nextDraw, draws := s.draws + 1 } := by
  simp [exec, execRd, State.hostRead, busy]

theorem exec_rd_of_register {r : RegName} (idle : s.busy = false) (names : a.toNat = r.addr) :
    exec (.rd a) s = .next { s with readData := regValue s s.nextDraw r, draws := s.draws + 1 } := by
  rw [← regAt_eq_some_iff] at names
  simp [exec, execRd, State.hostRead, idle, names]

/-- R55: a reserved address reads 0. -/
theorem exec_rd_of_reserved (idle : s.busy = false) (reserved : ∀ r : RegName, a.toNat ≠ r.addr) :
    exec (.rd a) s = .next { s with readData := 0#32, draws := s.draws + 1 } := by
  have none : regAt a = none := Option.eq_none_iff_forall_ne_some.mpr fun r h => reserved r (regAt_eq_some_iff.mp h)
  simp [exec, execRd, State.hostRead, idle, none]

/-- The gaps of R22's address column. -/
theorem RegName.addr_ne_of_reserved {n : Nat} (gap : n = 0x007 ∨ (0x00A ≤ n ∧ n ≤ 0x01F) ∨ (0x03A ≤ n ∧ n ≤ 0x03F) ∨
    (0x055 ≤ n ∧ n ≤ 0x0FF) ∨ 0x1FF ≤ n) (r : RegName) : n ≠ r.addr := by
  cases r <;> simp only [RegName.addr] <;> omega

/-- A narrow register reads with zeros above it (R22). -/
theorem setWidth_eq_of_toNat_eq {n : Nat} {v : BitVec n} {w : Word} (hn : n ≤ 32) (same : w.toNat = v.toNat) :
    v.setWidth 32 = w :=
  BitVec.eq_of_toNat_eq ((BitVec.toNat_setWidth_of_le hn).trans same.symm)

/-- Settles O12: the address names a register, and a reserved one names none. -/
theorem hostReadReturnsTheNamedRegister : Obligations.HostReadReturnsTheNamedRegister := by
  intro s a w idle word
  have register {r : RegName} (names : a.toNat = r.addr) (value : regValue s s.nextDraw r = w) :
      exec (.rd a) s = .next { s with readData := w, draws := s.draws + 1 } :=
    value ▸ exec_rd_of_register idle names
  obtain ⟨names, rfl⟩ | ⟨names, rfl⟩ | ⟨names, rfl⟩ | ⟨names, value⟩ | ⟨names, value⟩ | ⟨names, value⟩ |
    ⟨names, value⟩ | ⟨k, names, rfl⟩ | ⟨k, names, value⟩ | ⟨k, names, value⟩ | ⟨gap, rfl⟩ := word
  · exact register (r := .cmd) names rfl
  · exact register (r := .status) names rfl
  · exact register (r := .errInfo) names rfl
  · exact register (r := .inLen) names (setWidth_eq_of_toNat_eq (by decide) value)
  · exact register (r := .bitLen) names (setWidth_eq_of_toNat_eq (by decide) value)
  · exact register (r := .fmt) names (setWidth_eq_of_toNat_eq (by decide) value)
  · exact register (r := .bchResult) names (setWidth_eq_of_toNat_eq (by decide) value)
  · exact register (r := .bitStr k) names rfl
  · exact register (r := .cw k) names (setWidth_eq_of_toNat_eq (by decide) value)
  · exact register (r := .inChar k) names (setWidth_eq_of_toNat_eq (by decide) value)
  · exact exec_rd_of_reserved idle (RegName.addr_ne_of_reserved gap)

/-! ### Rows of the matrix (R30) -/

theorem rowWord_getLsbD_of_filled {m : SymbolMatrix} {r c : Nat} (draw : Word) (hc : c < 21)
    (filled : (m.cell r c).filled = true) : (rowWord m r draw).getLsbD c = (m.cell r c).val := by
  have inWord : c < 32 := by omega
  rw [rowWord, wordOf_getLsbD]
  simp [inWord, hc, filled]

theorem rowWord_getLsbD_of_unfilled {m : SymbolMatrix} {r c : Nat} (draw : Word) (hc : c < 21)
    (unfilled : (m.cell r c).filled = false) : (rowWord m r draw).getLsbD c = draw.getLsbD c := by
  have inWord : c < 32 := by omega
  rw [rowWord, wordOf_getLsbD]
  simp [inWord, hc, unfilled]

theorem rowWord_getLsbD_of_ge (m : SymbolMatrix) (r : Nat) (draw : Word) {c : Nat} (hc : 21 ≤ c) :
    (rowWord m r draw).getLsbD c = false := by
  simp [rowWord, Nat.not_lt.mpr hc]

theorem exec_rd_matrixRow {r : Nat} (idle : s.busy = false) (hr : r < 21) (names : a.toNat = 0x040 + r) :
    exec (.rd a) s = .next { s with readData := rowWord s.matrix r s.nextDraw, draws := s.draws + 1 } :=
  exec_rd_of_register (r := .matrixRow ⟨r, hr⟩) idle names

/-- Settles O13: the row's word, bit by bit. -/
theorem matrixRowReadsFilledCells : Obligations.MatrixRowReadsFilledCells := by
  intro s r a idle hr names
  exact ⟨_, exec_rd_matrixRow idle hr names, fun c hc => rowWord_getLsbD_of_filled _ hc,
    fun c hc => rowWord_getLsbD_of_unfilled _ hc, fun c => rowWord_getLsbD_of_ge _ _ _⟩

/-! ### A read while BUSY = 1 (R58) -/

/-- Only bit 0 of the draw is overwritten. -/
theorem statusWhileBusy_getLsbD (draw : Word) (i : Nat) :
    (statusWhileBusy draw).getLsbD i = (draw.getLsbD i || decide (i = 0)) := by
  simp [statusWhileBusy]

/-- Settles O14: STATUS is the one register at 0x001. -/
theorem readsWhileBusyAreDrawsButTheBusyBit : Obligations.ReadsWhileBusyAreDrawsButTheBusyBit := by
  intro s a busy
  have status : regAt a = some .status ↔ a = 0x001#12 := by
    rw [regAt_eq_some_iff, ← BitVec.toNat_inj]
    rfl
  refine ⟨_, exec_rd_of_busy busy, ?status, ?other⟩
  case status =>
    intro ha
    rw [if_pos (status.mpr ha)]
    refine ⟨by simp [statusWhileBusy_getLsbD], fun i hi => ?_⟩
    simp [statusWhileBusy_getLsbD, Nat.ne_of_gt hi, State.nextDraw]
  case other =>
    intro ha
    rw [if_neg (mt status.mp ha), State.nextDraw]

end Sys2Proof.Machine
end

section
/-! PROOFS. ALNUM is injective on strings of one length (40_alnum_encoder.md R104), and FRAME takes what ALNUM_ENCODE
latched (10_state.md R34). -/

namespace Sys2Proof.Machine

/-- `bin_k` loses nothing of a value below 2^k (00_scope.md R9). -/
theorem bin_injective {k v w : Nat} (hv : v < 2 ^ k) (hw : w < 2 ^ k) (same : bin k v = bin k w) : v = w := by
  apply Nat.eq_of_testBit_eq
  intro i
  by_cases hi : i < k
  · have index : k - 1 - (k - 1 - i) = i := by omega
    have bit := congrArg (fun b => b[k - 1 - i]?) same
    simpa [bin_getElem? _ (show k - 1 - i < k by omega), index] using bit
  · have le : 2 ^ k ≤ 2 ^ i := Nat.pow_le_pow_right (by decide) (Nat.not_lt.mp hi)
    rw [Nat.testBit_lt_two_pow (hv.trans_le le), Nat.testBit_lt_two_pow (hw.trans_le le)]

/-- A code stands in the listing of R76 at its value. -/
theorem getElem?_of_alnumValue {c : Codeword} {v : Nat} (h : alnumValue c = some v) : alphabet[v]? = some c := by
  rw [alnumValue, List.idxOf?, List.findIdx?_eq_some_iff_getElem] at h
  obtain ⟨hv, listed, -⟩ := h
  rw [List.getElem?_eq_getElem hv, beq_iff_eq.mp listed]

/-- A value belongs to one code only (R76). -/
theorem alnumValue_injective {c d : Codeword} {v : Nat} (hc : alnumValue c = some v) (hd : alnumValue d = some v) :
    c = d :=
  Option.some.inj ((getElem?_of_alnumValue hc).symm.trans (getElem?_of_alnumValue hd))

/-- Settles O25: pair by pair from the left, and a pair's value `v * 45 + w` gives back `v` and `w` (R104). -/
theorem alnumDeterminesTheString : Obligations.AlnumDeterminesTheString
  | [], [], _, _, _, _ => rfl
  | [c], [c'], valid, valid', _, same => by
    obtain ⟨v, hc⟩ := alnumValue_isSome (valid c (by simp))
    obtain ⟨v', hc'⟩ := alnumValue_isSome (valid' c' (by simp))
    have hv := alnumValue_lt hc
    have hv' := alnumValue_lt hc'
    rw [alnum_single hc, alnum_single hc'] at same
    obtain rfl : v = v' := bin_injective (by omega) (by omega) same
    rw [alnumValue_injective hc hc']
  | c :: d :: rest, c' :: d' :: rest', valid, valid', length, same => by
    obtain ⟨v, hc⟩ := alnumValue_isSome (valid c (by simp))
    obtain ⟨w, hd⟩ := alnumValue_isSome (valid d (by simp))
    obtain ⟨v', hc'⟩ := alnumValue_isSome (valid' c' (by simp))
    obtain ⟨w', hd'⟩ := alnumValue_isSome (valid' d' (by simp))
    have hv := alnumValue_lt hc
    have hw := alnumValue_lt hd
    have hv' := alnumValue_lt hc'
    have hw' := alnumValue_lt hd'
    rw [alnum_pair hc hd, alnum_pair hc' hd'] at same
    obtain ⟨samePair, sameRest⟩ := List.append_inj same (by simp)
    have pair : v * 45 + w = v' * 45 + w' := bin_injective (by omega) (by omega) samePair
    obtain rfl : v = v' := by omega
    obtain rfl : w = w' := by omega
    rw [alnumValue_injective hc hc', alnumValue_injective hd hd', alnumDeterminesTheString rest rest'
      (fun x hx => valid x (by simp [hx])) (fun x hx => valid' x (by simp [hx])) (by simpa using length) sameRest]

/-- Settles O30: a write outside CMD leaves what ALNUM_ENCODE latched, and FRAME reads nothing else (R34, R61). -/
theorem frameUsesTheLatchedCountAndBits : Obligations.FrameUsesTheLatchedCountAndBits := by
  intro s a v valid fits notCmd
  obtain ⟨cmd, -⟩ | ⟨len, chars, written⟩ := hostWrite_cases (afterAlnumEncode s) a v
  · exact absurd cmd notCmd
  · let u : State := { afterAlnumEncode s with inLen := len, inChar := chars }
    have bits : u.bitString = alnum s.inputString := bitString_of_encoded valid fits rfl rfl
    obtain ⟨framed, -⟩ := frameWritesTheNineDataCodewords u
    obtain ⟨cs, frame, codewords, -⟩ := framed rfl fits
    rw [bits] at codewords
    exact ⟨afterAlnumEncode s, u, _, exec_alnumEncode_valid valid fits,
      (exec_wr_of_not_busy a v rfl).trans (congrArg _ written), frame, rfl, rfl, codewords⟩

end Sys2Proof.Machine
end

section
/-! PROOFS. The codewords of the BCH(15,5) code (43_format_info.md R130, R134). -/

namespace Sys2Proof.Machine

/-- A word has remainder 0 exactly when it is a multiple of the generator (R130). -/
theorem bchrem_eq_zero_iff (d : BitVec 15) : bchrem d = 0#10 ↔ ∃ q, d = generatorMultiple q := by
  constructor
  · intro zero
    obtain ⟨q, remainder⟩ := bchrem_remainder d
    exact ⟨q, by simpa [zero] using remainder⟩
  · rintro ⟨q, multiple⟩
    exact bchrem_unique (q := q) (by simp [multiple])

/-- A payload followed by ten bits differs from the payload shifted in those bits alone. -/
theorem append_eq_shift_xor (p : BitVec 5) (r : BitVec 10) : p ++ r = (p ++ 0#10) ^^^ r.setWidth 15 := by
  apply BitVec.eq_of_getLsbD_eq
  intro i hi
  rw [BitVec.getLsbD_xor, BitVec.getLsbD_append, BitVec.getLsbD_append, BitVec.getLsbD_setWidth]
  by_cases low : i < 10
  · simp [low, hi]
  · simp [low, BitVec.getLsbD_of_ge r i (Nat.not_lt.mp low)]

/-- The parity of R131 is what completes a payload to a multiple of the generator. -/
theorem bchrem_shift_eq_iff (p : BitVec 5) (r : BitVec 10) :
    bchrem (p ++ 0#10) = r ↔ ∃ q, p ++ r = generatorMultiple q := by
  constructor
  · intro parity
    obtain ⟨q, remainder⟩ := bchrem_remainder (p ++ 0#10)
    rw [parity] at remainder
    exact ⟨q, by rw [append_eq_shift_xor p r, remainder, BitVec.xor_assoc, BitVec.xor_self, BitVec.xor_zero]⟩
  · rintro ⟨q, multiple⟩
    apply bchrem_unique (q := q)
    rw [← multiple, append_eq_shift_xor p r, BitVec.xor_assoc, BitVec.xor_self, BitVec.xor_zero]

theorem eq_payload_append_low (d : BitVec 15) : d = d.extractLsb' 10 5 ++ d.extractLsb' 0 10 := by
  apply BitVec.eq_of_getLsbD_eq
  intro i hi
  rw [BitVec.getLsbD_append, BitVec.getLsbD_extractLsb', BitVec.getLsbD_extractLsb']
  by_cases low : i < 10
  · simp [low]
  · have inPayload : i - 10 < 5 := by omega
    have index : 10 + (i - 10) = i := by omega
    simp [low, inPayload, index]

/-- Settles O34: both sides say that the word is a multiple of the generator, whose low ten bits are its parity. -/
theorem bchCodewordsAreExactlyPayloadAndParity : Obligations.BchCodewordsAreExactlyPayloadAndParity := by
  constructor
  · intro p
    rw [bchrem_eq_zero_iff, ← bchrem_shift_eq_iff]
  · intro d zero
    have parity : bchrem (d.extractLsb' 10 5 ++ 0#10) = d.extractLsb' 0 10 := by
      rwa [bchrem_shift_eq_iff, ← eq_payload_append_low, ← bchrem_eq_zero_iff]
    exact ⟨d.extractLsb' 10 5, by rw [parity, ← eq_payload_append_low]⟩

end Sys2Proof.Machine
end

section
/-! PROOFS. ENCODE and CLEAR (47_pipeline_control.md R181, R182). -/

namespace Sys2Proof.Machine

variable {s : State}

/-! ### Stages 1 and 2 (R181) -/

/-- CW after stages 1 and 2: the nine codewords of the framed stream before the rest of the old file (R111). -/
def frontCodewords (s : State) : Vector Codeword 26 :=
  Vector.ofFn fun k => if k.val < 9 then streamCodeword (frameStream s.inLen.toNat (alnum s.inputString)) k.val
    else s.cw[k.val]

theorem encodeFront_of_valid (valid : s.ValidInput) (fits : s.inLen.toNat ≤ 10) :
    encodeFront s = .done { afterFront s (frontCodewords s) with phase := .framed } :=
  encodeFront_done valid fits

theorem bitString_afterAlnumEncode (valid : s.ValidInput) (fits : s.inLen.toNat ≤ 10) :
    (afterAlnumEncode s).bitString = alnum s.inputString :=
  bitString_of_encoded valid fits rfl rfl

/-- FRAME after ALNUM_ENCODE. -/
theorem exec_frame_afterAlnumEncode (valid : s.ValidInput) (fits : s.inLen.toNat ≤ 10) :
    exec .frame (afterAlnumEncode s) = .next { afterFront s (frontCodewords s) with
      phase := .framed, err := .none, errInfo := 0#32, busy := false, stage := 0#3 } := by
  have frame := exec_frame_fits (s := afterAlnumEncode s) rfl fits
  rwa [bitString_afterAlnumEncode valid fits] at frame

/-- What FRAME leaves for the collaborator after ALNUM_ENCODE. -/
theorem dataCodewords_afterFrame (valid : s.ValidInput) (fits : s.inLen.toNat ≤ 10) :
    (afterFrame (afterAlnumEncode s)).dataCodewords = framedCodewords s.inLen.toNat (alnum s.inputString) := by
  have written := dataCodewords_of_framed (s := afterFrame (afterAlnumEncode s)) s.cw rfl
  rwa [bitString_afterAlnumEncode valid fits] at written

theorem framedCodewords_bit (n : Nat) (b : Bits) (k : Fin 9) {j : Nat} (hj : j < 8) :
    (framedCodewords n b)[k].getLsbD (7 - j) = ((frameStream n b)[8 * k.val + j]?).getD false := by
  simp only [framedCodewords, Fin.getElem_fin, Vector.getElem_ofFn, streamCodeword_bit _ _ hj]

/-! ### ENCODE, case by case -/

/-- ENCODE has no phase precondition (30_encoding.md R73). -/
theorem exec_encode_error {e : ErrCode} {info : Word} (error : encodeFront s = .error e info s)
    (he : e.isStageError = true) : exec .encode s = .next (afterStageError s e info) := by
  have ok : phaseOk .encode s = true := rfl
  rw [exec, execEncode, ifPhase_of_ok _ ok, error]
  exact congrArg _ (raise_stage he info s)

theorem exec_encode_pending {req : RsRequest} (valid : s.ValidInput) (fits : s.inLen.toNat ≤ 10)
    (pending : s.rsPort = some req) : exec .encode s =
      .next (encodeBack (s.rsAnswer req.data) { afterFront s (frontCodewords s) with phase := .framed }).finish := by
  have ok : phaseOk .encode s = true := rfl
  rw [exec, execEncode, ifPhase_of_ok _ ok, encodeFront_of_valid valid fits, pending]

theorem exec_encode_rsFailure {req : RsRequest} {e : Nat} (valid : s.ValidInput) (fits : s.inLen.toNat ≤ 10)
    (pending : s.rsPort = some req) (answer : s.rsAnswer req.data = .fail e) : exec .encode s =
      .next (afterStageError (afterFront s (frontCodewords s)) .rsFailure (Config.rsErrInfo e)) := by
  rw [exec_encode_pending valid fits pending, answer, encodeBack_error (augmentBody_fail e _), finish_error rfl]
  rfl

theorem exec_encode_mismatch {req : RsRequest} {seq : List Codeword} (valid : s.ValidInput)
    (fits : s.inLen.toNat ≤ 10) (pending : s.rsPort = some req) (answer : s.rsAnswer req.data = .ok seq)
    (wrongLength : seq.length ≠ 26) : exec .encode s =
      .next (afterStageError (afterFront s (frontCodewords s)) .layoutMismatch (BitVec.ofNat 32 (8 * seq.length))) := by
  rw [exec_encode_pending valid fits pending, answer, encodeBack_error (augmentBody_mismatch wrongLength _),
    finish_error rfl]
  rfl

theorem exec_encode_end {req : RsRequest} {cs : Vector Codeword 26} (valid : s.ValidInput)
    (fits : s.inLen.toNat ≤ 10) (pending : s.rsPort = some req) (answer : s.rsAnswer req.data = .ok cs.toList) :
    exec .encode s = .next (afterEncode s cs) := by
  obtain ⟨cs', same, ends⟩ := exec_encode_answered valid fits pending answer (Vector.length_toList)
  obtain rfl : cs' = cs := Vector.toList_inj.mp same
  exact ends

/-- Settles O43: the request holds the codewords of the framed stream. -/
theorem encodeSendsTheFramedCodewords : Obligations.EncodeSendsTheFramedCodewords := by
  intro s valid fits noRequest
  exact ⟨_, exec_encode_request valid fits noRequest, rfl, fun k _ hj => framedCodewords_bit _ _ k hj⟩

/-- Settles O45: stages 1 and 2 stop before a request, and stage 3 stops with their outputs written. -/
theorem encodeStopsAtTheFirstError : Obligations.EncodeStopsAtTheFirstError := by
  intro s
  refine ⟨?invalidCharacter, ?capacityExceeded, ?stageThree⟩
  case invalidCharacter =>
    intro i inInput bad before
    exact exec_encode_error (encodeFront_invalid (firstInvalid_of_slot inInput bad before)) rfl
  case capacityExceeded =>
    intro valid long
    exact exec_encode_error (encodeFront_capacity valid long) rfl
  case stageThree =>
    intro req valid fits pending
    exact ⟨_, _, exec_alnumEncode_valid valid fits, exec_frame_afterAlnumEncode valid fits,
      fun e answer => exec_encode_rsFailure valid fits pending answer,
      fun seq answer wrongLength => exec_encode_mismatch valid fits pending answer wrongLength⟩

/-! ### The slots past IN_LEN (R101) -/

/-- The input string is made of the first IN_LEN slots (R27). -/
theorem inputString_of_slots {v : Vector Codeword 255}
    (same : ∀ i : Fin 255, i.val < s.inLen.toNat → v[i] = s.inChar[i]) :
    ({ s with inChar := v } : State).inputString = s.inputString := by
  apply List.ext_getElem
  · rw [inputString_length, inputString_length]
  · intro i hi hi'
    rw [inputString_getElem, inputString_getElem]
    rw [inputString_length] at hi'
    exact same ⟨i, by have := s.inLen.isLt; omega⟩ hi'

/-- R101, the cases of an input. -/
theorem input_cases (s : State) : (s.ValidInput ∧ s.inLen.toNat ≤ 10) ∨ (s.ValidInput ∧ 10 < s.inLen.toNat) ∨
    ∃ i, firstInvalid s.inputString = some i := by
  obtain valid | bad := validInput_or_firstInvalid s
  · obtain long | fits := Nat.lt_or_ge 10 s.inLen.toNat
    · exact .inr (.inl ⟨valid, long⟩)
    · exact .inl ⟨valid, fits⟩
  · exact .inr (.inr bad)

section
variable {v : Vector Codeword 255} (same : ({ s with inChar := v } : State).inputString = s.inputString)
include same

theorem validInput_of_inputString (valid : s.ValidInput) : ({ s with inChar := v } : State).ValidInput := by
  rw [validInput_iff] at valid ⊢
  rwa [same]

/-- ALNUM_ENCODE reads the input string and IN_LEN, and no slot else. -/
theorem exec_alnumEncode_of_inputString : ∃ t, exec .alnumEncode s = .next t ∧
    exec .alnumEncode { s with inChar := v } = .next { t with inChar := v } := by
  obtain ⟨valid, fits⟩ | ⟨valid, long⟩ | ⟨i, bad⟩ := input_cases s
  · refine ⟨_, exec_alnumEncode_valid valid fits, ?_⟩
    rw [exec_alnumEncode_valid (validInput_of_inputString same valid) fits, same]
  · exact ⟨_, exec_alnumEncode_capacity valid long,
      exec_alnumEncode_capacity (validInput_of_inputString same valid) long⟩
  · exact ⟨_, exec_alnumEncode_invalid bad, exec_alnumEncode_invalid (same ▸ bad)⟩

/-- ENCODE on the collaborator's answer. -/
theorem exec_encode_pending_of_inputString {req : RsRequest} (valid : s.ValidInput) (fits : s.inLen.toNat ≤ 10)
    (pending : s.rsPort = some req) : ∃ t, exec .encode s = .next t ∧
    exec .encode { s with inChar := v } = .next { t with inChar := v } := by
  have valid' := validInput_of_inputString same valid
  cases answer : s.rsAnswer req.data with
  | fail e =>
    refine ⟨_, exec_encode_rsFailure valid fits pending answer, ?_⟩
    rw [exec_encode_rsFailure valid' fits pending answer, afterFront, frontCodewords, same]
    rfl
  | ok seq =>
    by_cases length : seq.length = 26
    · obtain ⟨cs, rfl, -⟩ := augmentBody_done length s
      refine ⟨_, exec_encode_end valid fits pending answer, ?_⟩
      rw [exec_encode_end valid' fits pending answer, afterEncode, same]
      rfl
    · refine ⟨_, exec_encode_mismatch valid fits pending answer length, ?_⟩
      rw [exec_encode_mismatch valid' fits pending answer length, afterFront, frontCodewords, same]
      rfl

theorem exec_encode_of_inputString : ∃ t, exec .encode s = .next t ∧
    exec .encode { s with inChar := v } = .next { t with inChar := v } := by
  obtain ⟨valid, fits⟩ | ⟨valid, long⟩ | ⟨i, bad⟩ := input_cases s
  · obtain port | ⟨req, pending⟩ := Option.eq_none_or_eq_some s.rsPort
    · refine ⟨_, exec_encode_request valid fits port, ?_⟩
      rw [exec_encode_request (validInput_of_inputString same valid) fits port, same]
    · exact exec_encode_pending_of_inputString same valid fits pending
  · exact ⟨_, exec_encode_error (encodeFront_capacity valid long) rfl,
      exec_encode_error (encodeFront_capacity (validInput_of_inputString same valid) long) rfl⟩
  · exact ⟨_, exec_encode_error (encodeFront_invalid bad) rfl,
      exec_encode_error (encodeFront_invalid (same ▸ bad)) rfl⟩

end

/-- Settles O27: the slots below IN_LEN make the input string, and both commands read that alone. -/
theorem slotsPastTheLengthAreNeverRead : Obligations.SlotsPastTheLengthAreNeverRead := by
  intro s v slots
  have same := inputString_of_slots slots
  exact ⟨exec_alnumEncode_of_inputString same, exec_encode_of_inputString same⟩

/-! ### The finished symbol -/

/-- The matrix ENCODE ends with, from the codewords and the old matrix (R181). -/
def finishedMatrix (cs : Vector Codeword 26) (m : SymbolMatrix) : SymbolMatrix :=
  embedFormat 0x19D0#15 ((placeWalk cs m).matrix.mapCells maskCell)

/-- V[i] holds bit i, masked once (R150, R161). -/
theorem cell_finishedMatrix_data (cs : Vector Codeword 26) (m : SymbolMatrix) {i r c : Nat}
    (visited : visitOrder[i]? = some (r, c)) :
    (finishedMatrix cs m).cell r c = { filled := true, val := placementBit cs i ^^ mask3 r c } := by
  obtain ⟨-, hr, hc, slot, -⟩ := visitOrder_getElem?_mem visited
  rw [finishedMatrix, cell_embed_of_not_reserved _ _ hr hc (by simp [slot]), cell_mask_of_slot _ hr hc slot,
    cell_placeWalk_data cs m visited]

/-- A function cell is as PLACE initialised it (R151). -/
theorem cell_finishedMatrix_function (cs : Vector Codeword 26) (m : SymbolMatrix) {r c : Nat} (hr : r < 21) (hc : c < 21)
    (notSlot : tag r c ≠ .dataSlot) (notReserved : tag r c ≠ .formatReserved) :
    (finishedMatrix cs m).cell r c = initCell r c (m.cell r c) := by
  rw [finishedMatrix, cell_embed_of_not_reserved _ _ hr hc notReserved, cell_mask_of_not_slot _ hr hc notSlot,
    cell_placeWalk_other cs m hr hc notSlot]

/-- Settles O44: each cell of the finished symbol, by its tag. -/
theorem encodeEndsWithTheFinishedSymbol : Obligations.EncodeEndsWithTheFinishedSymbol := by
  intro s req seq valid fits pending _ answer length
  obtain ⟨cs, asReturned, ends⟩ := exec_encode_answered valid fits pending answer length
  refine ⟨_, _, cs, finishedMatrix cs s.matrix, _, ends, asReturned, bitLen_toNat_of_valid valid fits, rfl,
    fun k _ hj => packBits_getLsbD _ k hj, ?data, ?light, ?dark, ?format⟩
  case data =>
    intro k j r c hj visited
    rw [cell_finishedMatrix_data cs s.matrix visited, placementBit_at cs k hj, mask3]
  case light =>
    intro r c hr hc light
    rw [cell_finishedMatrix_function cs s.matrix hr hc (by simp [light]) (by simp [light]), initCell_light _ light]
  case dark =>
    intro r c hr hc dark
    rw [cell_finishedMatrix_function cs s.matrix hr hc (by simp [dark]) (by simp [dark]), initCell_dark _ dark]
  case format =>
    intro r c k hr hc names
    exact cell_embedFormat_of_formatBitAt _ _ hr hc names

/-- Settles O46: each stage meets the phase that the one before it leaves, and the collaborator is asked the same. -/
theorem encodeIsTheSevenStagesInOrder : Obligations.EncodeIsTheSevenStagesInOrder := by
  intro s seq valid fits noRequest answer length
  obtain ⟨cs, rfl, -⟩ := augmentBody_done length s
  have sent := dataCodewords_afterFrame valid fits
  have augment : exec .ecAugment (State.sendRequest (framedCodewords s.inLen.toNat (alnum s.inputString))
      (afterFrame (afterAlnumEncode s))) = .next (afterAugment cs (afterFrame (afterAlnumEncode s))) :=
    exec_ecAugment_answered rfl rfl answer cs rfl
  refine ⟨afterAlnumEncode s, afterFrame _, State.sendRequest _ _, afterAugment cs _, afterFormatBuild _, afterPlace _,
    afterMask _, _, afterEncode s cs, exec_alnumEncode_valid valid fits, exec_frame_fits rfl fits,
    sent ▸ exec_ecAugment_request rfl noRequest, augment, formatBuildWritesTheConstantField _,
    exec_place_augmented rfl, exec_mask_placed (.inl rfl), ?embed,
    exec_encode_request valid fits noRequest, exec_encode_end valid fits rfl answer⟩
  case embed =>
    rw [afterEncode_eq_stages]
    exact exec_formatEmbed_masked rfl rfl

/-! ### CLEAR (R182) -/

/-- Settles O47: CLEAR has no phase precondition, and maps every cell to an unfilled one. -/
theorem clearRestoresAllButTheInput : Obligations.ClearRestoresAllButTheInput := fun s =>
  ⟨s.matrix.mapCells fun _ _ x => { x with filled := false }, rfl,
    fun _ _ hr hc => SymbolMatrix.cell_mapCells s.matrix _ hr hc⟩

end Sys2Proof.Machine
end

section
/-! PROOFS. The invariant of the machine: it holds after a reset, every move keeps it (10_state.md R24, R36), and what
it says of a finished symbol (46_format_embedder.md R175, R176). -/

namespace Sys2Proof.Machine

/-- Stream bits of packed registers (R28). -/
theorem packedBit_of_packed {s : State} {b : Bits} (packed : s.bitStr = packBits b) {j : Nat} (hj : j < 64) :
    s.packedBit j = streamBit b j := by
  rw [State.packedBit, packed, packBits_bit b j hj]

/-- Zero registers are the packed empty string. -/
theorem packedBit_of_zero {s : State} (zero : s.bitStr = Vector.replicate 2 0#32) {j : Nat} (hj : j < 64) :
    s.packedBit j = false := by
  have empty : packBits [] = Vector.replicate 2 0#32 := by decide
  rw [packedBit_of_packed (zero.trans empty.symm) hj, streamBit_nil]

/-- R28: packed bits past BITLEN are 0, once BITSTR and BITLEN are written from one string. -/
theorem packedBit_past_bitLen {s u : State} (valid : s.ValidInput) (fits : s.inLen.toNat ≤ 10)
    (packed : u.bitStr = packBits (alnum s.inputString))
    (length : u.bitLen = BitVec.ofNat 6 (alnum s.inputString).length) (j : Nat) (past : u.bitLen.toNat ≤ j)
    (hj : j < 64) : u.packedBit j = false := by
  rw [packedBit_of_packed packed hj]
  rw [length, bitLen_toNat_of_valid valid fits] at past
  exact streamBit_of_le past

/-- A port that holds no request holds none that anything could be said of. -/
theorem absurd_pending {port : Option RsRequest} {req : RsRequest} {P : Prop} (none : port = none)
    (pending : port = some req) : P :=
  nomatch none.symm.trans pending

namespace State.Inv

variable {s : State}

/-! ### Building it -/

/-- Below PHASE 4 nothing is promised of the matrix. -/
theorem of_not_placed (notPlaced : s.phase.code.toNat < 4) (ended : s.Ended) (port : s.rsPort = none)
    (format : s.fmt = if s.fmtValid then 0x19D0#15 else 0#15)
    (tail : ∀ j, s.bitLen.toNat ≤ j → j < 64 → s.packedBit j = false)
    (encoded : 1 ≤ s.phase.code.toNat → ∃ str : List Codeword, (∀ c ∈ str, inAlphabet c = true) ∧
      str.length = s.nLatch.toNat ∧ str.length ≤ 10 ∧ s.bitLen.toNat = (alnum str).length ∧ s.bitString = alnum str)
    (framed : s.phase = .framed → s.dataCodewords = framedCodewords s.nLatch.toNat s.bitString)
    (augmented : 3 ≤ s.phase.code.toNat →
      s.rsAnswer (framedCodewords s.nLatch.toNat s.bitString) = .ok s.cw.toList)
    (zigzag : (s.zig = ZigZag.start ∧ s.bidx = 0#8) ∨
      (s.zig = { rc := 1#5, row := 20#5, dir := .down, sub := .right, ended := true } ∧ s.bidx = 208#8)) : s.Inv where
  quiet _ := port
  stageZero _ := ended.stage
  waiting _ := absurd_pending port
  noInfo := ended.noInfo
  format := format
  tail := tail
  encoded := encoded
  framed := framed
  augmented := augmented
  light h := absurd h (Nat.not_le.mpr notPlaced)
  dark h := absurd h (Nat.not_le.mpr notPlaced)
  data h := absurd h (Nat.not_le.mpr notPlaced)
  reserved h := by
    have placed : 4 ≤ s.phase.code.toNat := by obtain h | h := h <;> simp [h, Phase.code]
    exact absurd placed (Nat.not_le.mpr notPlaced)
  embedded h := by
    have placed : 4 ≤ s.phase.code.toNat := by simp [h, Phase.code]
    exact absurd placed (Nat.not_le.mpr notPlaced)
  zigzag := zigzag

/-- PHASE 0 promises nothing of the registers' contents. -/
theorem of_idle (idle : s.phase = .idle) (ended : s.Ended) (port : s.rsPort = none)
    (format : s.fmt = if s.fmtValid then 0x19D0#15 else 0#15)
    (tail : ∀ j, s.bitLen.toNat ≤ j → j < 64 → s.packedBit j = false)
    (zigzag : (s.zig = ZigZag.start ∧ s.bidx = 0#8) ∨
      (s.zig = { rc := 1#5, row := 20#5, dir := .down, sub := .right, ended := true } ∧ s.bidx = 208#8)) : s.Inv := by
  have code : s.phase.code.toNat = 0 := by simp [idle, Phase.code]
  exact of_not_placed (by omega) ended port format tail (fun h => by omega) (fun h => by rw [idle] at h; cases h)
    (fun h => by omega) zigzag

/-- A block that waits for nothing may end its command, with an error too. -/
theorem ended (inv : s.Inv) (port : s.rsPort = none) {e : ErrCode} {info : Word} (noInfo : e = .none → info = 0#32) :
    { s with err := e, errInfo := info, busy := false, stage := 0#3 }.Inv :=
  { inv with
    quiet := fun _ => port
    stageZero := fun _ => rfl
    waiting := fun _ => absurd_pending port
    noInfo := noInfo }

/-! ### When a request is out -/

/-- Only EC_AUGMENT and ENCODE wait (R122). -/
theorem port_eq_none (inv : s.Inv) (notAugment : decode s.cmdLatch ≠ .ok .ecAugment)
    (notEncode : decode s.cmdLatch ≠ .ok .encode) : s.rsPort = none := by
  cases port : s.rsPort with
  | none => rfl
  | some req =>
    obtain ⟨-, ⟨augment, -⟩ | ⟨encode, -⟩⟩ := inv.waiting req port
    · exact absurd augment notAugment
    · exact absurd encode notEncode

theorem port_eq_none_of_decode (inv : s.Inv) {i : Instr} (decoded : decode s.cmdLatch = .ok i)
    (notAugment : i ≠ .ecAugment) (notEncode : i ≠ .encode) : s.rsPort = none :=
  inv.port_eq_none (by simp [decoded, notAugment]) (by simp [decoded, notEncode])

/-- A command that waits has passed its phase check, and PHASE has not moved since (R122). -/
theorem port_eq_none_of_not_phaseOk (inv : s.Inv) {i : Instr} (decoded : decode s.cmdLatch = .ok i)
    (refused : phaseOk i s = false) : s.rsPort = none := by
  cases port : s.rsPort with
  | none => rfl
  | some req =>
    obtain ⟨-, ⟨augment, -, framed, -⟩ | ⟨encode, -⟩⟩ := inv.waiting req port
    · cases decoded.symm.trans augment
      simp [phaseOk, framed] at refused
    · cases decoded.symm.trans encode
      simp [phaseOk] at refused

/-- What EC_AUGMENT waits for (R122). -/
theorem waiting_ecAugment (inv : s.Inv) {req : RsRequest} (decoded : decode s.cmdLatch = .ok .ecAugment)
    (pending : s.rsPort = some req) : req.data = s.dataCodewords := by
  obtain ⟨-, ⟨-, -, -, sent⟩ | ⟨encode, -⟩⟩ := inv.waiting req pending
  · exact sent
  · cases decoded.symm.trans encode

/-- What ENCODE waits for (R181). -/
theorem waiting_encode (inv : s.Inv) {req : RsRequest} (decoded : decode s.cmdLatch = .ok .encode)
    (pending : s.rsPort = some req) : req.data = framedCodewords s.inLen.toNat (alnum s.inputString) := by
  obtain ⟨-, ⟨augment, -⟩ | ⟨-, -, -, -, sent⟩⟩ := inv.waiting req pending
  · cases decoded.symm.trans augment
  · exact sent

/-! ### The stages keep it -/

/-- R202: a stage error goes to PHASE 0 and empties the port; the registers stay. -/
theorem afterStageError (inv : s.Inv) {e : ErrCode} (info : Word) (he : e.isStageError = true) :
    (afterStageError s e info).Inv :=
  of_idle rfl (afterStageError_ended s info he) rfl inv.format inv.tail inv.zigzag

/-- R202 (a) after stage 2: the outputs of stages 1 and 2 are kept. -/
theorem afterStageError_front (inv : s.Inv) (valid : s.ValidInput) (fits : s.inLen.toNat ≤ 10) (c : Vector Codeword 26)
    {e : ErrCode} (info : Word) (he : e.isStageError = true) :
    (Machine.afterStageError (afterFront s c) e info).Inv :=
  of_idle rfl (afterStageError_ended _ info he) rfl inv.format (packedBit_past_bitLen valid fits rfl rfl) inv.zigzag

theorem afterAlnumEncode (inv : s.Inv) (valid : s.ValidInput) (fits : s.inLen.toNat ≤ 10) (port : s.rsPort = none) :
    (afterAlnumEncode s).Inv := by
  refine of_not_placed (show Phase.encoded.code.toNat < 4 by decide) ⟨rfl, rfl, fun _ => rfl⟩ port inv.format
    (packedBit_past_bitLen valid fits rfl rfl)
    (fun _ => ⟨s.inputString, (validInput_iff s).mp valid, inputString_length s, ?short,
      bitLen_toNat_of_valid valid fits, bitString_of_encoded valid fits rfl rfl⟩)
    nofun (fun h : 3 ≤ Phase.encoded.code.toNat => absurd h (by decide)) inv.zigzag
  case short => rwa [inputString_length]

theorem afterFrame (inv : s.Inv) (encoded : s.phase = .encoded) (port : s.rsPort = none) : (afterFrame s).Inv :=
  of_not_placed (show Phase.framed.code.toNat < 4 by decide) ⟨rfl, rfl, fun _ => rfl⟩ port inv.format inv.tail
    (fun _ => inv.encoded (by simp [encoded, Phase.code])) (fun _ => dataCodewords_of_framed s.cw rfl)
    (fun h : 3 ≤ Phase.framed.code.toNat => absurd h (by decide)) inv.zigzag

theorem afterAugment (inv : s.Inv) (framed : s.phase = .framed) {cs : Vector Codeword 26}
    (answer : s.rsAnswer s.dataCodewords = .ok cs.toList) : (afterAugment cs s).Inv :=
  of_not_placed (show Phase.augmented.code.toNat < 4 by decide) ⟨rfl, rfl, fun _ => rfl⟩ rfl inv.format inv.tail
    (fun _ => inv.encoded (by simp [framed, Phase.code])) nofun (fun _ => inv.framed framed ▸ answer) inv.zigzag

/-- FMT, once built, is the constant of R132. -/
theorem fmt_eq (inv : s.Inv) (built : s.fmtValid = true) : s.fmt = 0x19D0#15 := by
  rw [inv.format, built, if_pos rfl]

/-- FORMAT_BUILD writes the value FMT has already, if it was built before. -/
theorem afterFormatBuild (inv : s.Inv) (port : s.rsPort = none) : (afterFormatBuild s).Inv :=
  { inv.ended port (e := .none) (fun _ => rfl) with
    format := rfl
    embedded := fun embedded => by
      obtain ⟨built, copies⟩ := inv.embedded embedded
      rw [inv.fmt_eq built] at copies
      exact ⟨rfl, copies⟩ }

theorem afterPlace (inv : s.Inv) (augmented : s.phase = .augmented) (port : s.rsPort = none) : (afterPlace s).Inv :=
  have initialised {r c : Nat} := cell_placeWalk_other s.cw s.matrix (r := r) (c := c)
  { inv.ended port (e := .none) (fun _ => rfl) with
    waiting := fun _ => absurd_pending port
    encoded := fun _ => inv.encoded (by simp [augmented, Phase.code])
    framed := nofun
    augmented := fun _ => inv.augmented (by simp [augmented, Phase.code])
    light := fun _ r c hr hc light => by
      rw [Machine.afterPlace, initialised hr hc (by simp [light]), initCell_light _ light]
    dark := fun _ r c hr hc dark => by
      rw [Machine.afterPlace, initialised hr hc (by simp [dark]), initCell_dark _ dark]
    data := fun _ i r c visited => by
      rw [Machine.afterPlace, cell_placeWalk_data _ _ visited]
      simp
    reserved := fun _ r c reserved => by
      by_cases inside : r < 21 ∧ c < 21
      · obtain ⟨hr, hc⟩ := inside
        rw [Machine.afterPlace, initialised hr hc (by simp [reserved]), initCell_formatReserved _ reserved]
      · rw [SymbolMatrix.cell_outside _ inside]
    embedded := nofun
    zigzag := .inr ⟨rfl, rfl⟩ }

/-- MASK toggles bit i together with what PHASE says of it (R161). -/
theorem maskedBit_toggle : ∀ bit phase pattern : Bool,
    ((bit ^^ (phase && pattern)) ^^ pattern) = (bit ^^ (!phase && pattern)) := by
  decide

theorem afterMask (inv : s.Inv) (inPhase : s.phase = .placed ∨ s.phase = .masked) (port : s.rsPort = none) :
    (afterMask s).Inv := by
  have placed : 4 ≤ s.phase.code.toNat := by obtain h | h := inPhase <;> simp [h, Phase.code]
  have toggle : decide ((Machine.afterMask s).phase ≠ .placed) = !decide (s.phase ≠ .placed) := by
    obtain h | h := inPhase <;> simp [Machine.afterMask, h]
  have kept {r c : Nat} := cell_mask_of_not_slot s.matrix (r := r) (c := c)
  have phase : (Machine.afterMask s).phase = .placed ∨ (Machine.afterMask s).phase = .masked := phase_after_mask s.phase
  exact
    { inv.ended port (e := .none) (fun _ => rfl) with
      waiting := fun _ => absurd_pending port
      encoded := fun _ => inv.encoded (by omega)
      framed := fun framed => by obtain h | h := phase <;> cases h.symm.trans framed
      augmented := fun _ => inv.augmented (by omega)
      light := fun _ r c hr hc light => (kept hr hc (by simp [light])).trans (inv.light placed r c hr hc light)
      dark := fun _ r c hr hc dark => (kept hr hc (by simp [dark])).trans (inv.dark placed r c hr hc dark)
      data := fun _ i r c visited => by
        obtain ⟨-, hr, hc, slot, -⟩ := visitOrder_getElem?_mem visited
        rw [toggle, ← maskedBit_toggle, Machine.afterMask, cell_mask_of_slot _ hr hc slot,
          inv.data placed i r c visited]
      reserved := fun _ r c reserved => by
        by_cases inside : r < 21 ∧ c < 21
        · obtain ⟨hr, hc⟩ := inside
          rw [Machine.afterMask, kept hr hc (by simp [reserved])]
          exact inv.reserved inPhase r c reserved
        · rw [SymbolMatrix.cell_outside _ inside]
      embedded := fun embedded => by obtain h | h := phase <;> cases h.symm.trans embedded }

theorem afterFormatEmbed (inv : s.Inv) (masked : s.phase = .masked) (built : s.fmtValid = true)
    (port : s.rsPort = none) : (afterFormatEmbed s).Inv := by
  have placed : 4 ≤ s.phase.code.toNat := by simp [masked, Phase.code]
  have kept {r c : Nat} := cell_embed_of_not_reserved s.fmt s.matrix (r := r) (c := c)
  exact
    { inv.ended port (e := .none) (fun _ => rfl) with
      waiting := fun _ => absurd_pending port
      encoded := fun _ => inv.encoded (by omega)
      framed := nofun
      augmented := fun _ => inv.augmented (by omega)
      light := fun _ r c hr hc light => (kept hr hc (by simp [light])).trans (inv.light placed r c hr hc light)
      dark := fun _ r c hr hc dark => (kept hr hc (by simp [dark])).trans (inv.dark placed r c hr hc dark)
      data := fun _ i r c visited => by
        obtain ⟨-, hr, hc, slot, -⟩ := visitOrder_getElem?_mem visited
        rw [Machine.afterFormatEmbed, kept hr hc (by simp [slot]), inv.data placed i r c visited, masked]
        rfl
      reserved := fun h => by obtain h | h := h <;> cases h
      embedded := fun _ => ⟨built, fun r c k names hr hc =>
        cell_embedFormat_of_formatBitAt s.fmt s.matrix hr hc names⟩ }

/-- A request may be dropped, and STAGE with it. -/
theorem portEmptied (inv : s.Inv) : { s with rsPort := none, stage := 0#3 }.Inv :=
  { inv with
    quiet := fun _ => rfl
    stageZero := fun _ => rfl
    waiting := nofun }

/-- R181: ENCODE's end is its stages' end, and each stage keeps the invariant. -/
theorem afterEncode (inv : s.Inv) (valid : s.ValidInput) (fits : s.inLen.toNat ≤ 10) {cs : Vector Codeword 26}
    (answer : s.rsAnswer (framedCodewords s.inLen.toNat (alnum s.inputString)) = .ok cs.toList) :
    (afterEncode s cs).Inv := by
  have encoded := inv.portEmptied.afterAlnumEncode valid fits rfl
  have framed := encoded.afterFrame rfl rfl
  have sent : (Machine.afterFrame (Machine.afterAlnumEncode { s with rsPort := none, stage := 0#3 })).dataCodewords =
      framedCodewords s.inLen.toNat (alnum s.inputString) := dataCodewords_afterFrame valid fits
  have augmented := framed.afterAugment (cs := cs) rfl (sent.symm ▸ answer)
  have masked := ((augmented.afterFormatBuild rfl).afterPlace rfl rfl).afterMask (.inl rfl) rfl
  have embedded := masked.afterFormatEmbed rfl rfl rfl
  rwa [← afterEncode_eq_stages] at embedded

/-- CLEAR leaves nothing that the invariant could speak of (R182). -/
theorem of_clear (port : s.rsPort = none) : ((clearState s).succeed).Inv :=
  of_idle rfl ⟨rfl, rfl, fun _ => rfl⟩ port rfl (fun _ _ => packedBit_of_zero rfl) (.inl ⟨rfl, rfl⟩)

/-- R122: EC_AUGMENT's request holds CW[0..8]. -/
theorem requestAugment (inv : s.Inv) (busy : s.busy = true) (decoded : decode s.cmdLatch = .ok .ecAugment)
    (framed : s.phase = .framed) (port : s.rsPort = none) :
    { s with rsPort := some ⟨s.dataCodewords, 17⟩ }.Inv :=
  { inv with
    quiet := fun idle => nomatch busy.symm.trans idle
    stageZero := nofun
    waiting := fun req sent => by
      cases sent
      exact ⟨rfl, .inl ⟨decoded, inv.stageZero port, framed, rfl⟩⟩ }

/-- R181: ENCODE's request holds the framed codewords of its input. -/
theorem requestEncode (inv : s.Inv) (busy : s.busy = true) (decoded : decode s.cmdLatch = .ok .encode)
    (valid : s.ValidInput) (fits : s.inLen.toNat ≤ 10) :
    { s with rsPort := some ⟨framedCodewords s.inLen.toNat (alnum s.inputString), 17⟩, stage := 3#3 }.Inv :=
  { inv with
    quiet := fun idle => nomatch busy.symm.trans idle
    stageZero := nofun
    waiting := fun req sent => by
      cases sent
      exact ⟨rfl, .inr ⟨decoded, rfl, valid, fits, rfl⟩⟩ }

/-! ### The moves keep it -/

/-- The command in CMD_LATCH, by what its move can do. -/
theorem command (inv : s.Inv) (busy : s.busy = true) {i : Instr} (decoded : decode s.cmdLatch = .ok i) {t : State}
    (effect : CommandEffect i s t) : t.Inv := by
  have port := inv.port_eq_none_of_decode decoded
  obtain ⟨refused, rfl⟩ | ⟨e, info, he, rfl⟩ | ⟨rfl, valid, fits, rfl⟩ | ⟨rfl, encoded, rfl⟩ |
    ⟨rfl, framed, idle, rfl⟩ | ⟨rfl, framed, req, cs, pending, answer, rfl⟩ | ⟨rfl, rfl⟩ | ⟨rfl, augmented, rfl⟩ |
    ⟨rfl, inPhase, rfl⟩ | ⟨rfl, masked, built, rfl⟩ | ⟨rfl, valid, fits, idle, rfl⟩ |
    ⟨rfl, valid, fits, req, cs, pending, answer, rfl⟩ | ⟨rfl, valid, fits, e, info, c, he, rfl⟩ | ⟨d, rfl, rfl⟩ |
    ⟨rfl, rfl⟩ := effect
  · exact inv.ended (inv.port_eq_none_of_not_phaseOk decoded refused) nofun -- SEQUENCE_ERROR
  · exact inv.afterStageError info he
  · exact inv.afterAlnumEncode valid fits (port nofun nofun)
  · exact inv.afterFrame encoded (port nofun nofun)
  · exact inv.requestAugment busy decoded framed idle
  · exact inv.afterAugment framed (inv.waiting_ecAugment decoded pending ▸ answer)
  · exact inv.afterFormatBuild (port nofun nofun)
  · exact inv.afterPlace augmented (port nofun nofun)
  · exact inv.afterMask inPhase (port nofun nofun)
  · exact inv.afterFormatEmbed masked built (port nofun nofun)
  · exact inv.requestEncode busy decoded valid fits
  · exact inv.afterEncode valid fits (inv.waiting_encode decoded pending ▸ answer)
  · exact inv.afterStageError_front valid fits c info he -- ENCODE's end, in stage 3
  · exact { inv.ended (port nofun nofun) (e := .none) (fun _ => rfl) with } -- BCH_REM
  · exact of_clear (port nofun nofun) -- CLEAR

theorem inputs (inv : s.Inv) (rest : List Input) : { s with inputs := rest }.Inv := { inv with }

/-- A host read writes no item of the block (R52). -/
theorem hostRead (inv : s.Inv) (w : Word) (n : Nat) : { s with readData := w, draws := n }.Inv := { inv with }

/-- A host write outside BUSY finds the port empty, and only a request speaks of the input. -/
theorem hostWrite (inv : s.Inv) (idle : s.busy = false) (a : Addr) (v : Word) : (s.hostWrite a v).Inv := by
  obtain ⟨-, command⟩ | ⟨len, chars, input⟩ := hostWrite_cases s a v
  · rw [command]
    exact { inv with quiet := nofun, waiting := fun _ => absurd_pending (inv.quiet idle) }
  · rw [input]
    exact { inv with waiting := fun _ => absurd_pending (inv.quiet idle) }

end State.Inv

/-- R39: a reset leaves nothing that the invariant could speak of. -/
theorem State.resetAt_inv (k : Nat) : (State.resetAt k).Inv :=
  .of_idle rfl ⟨rfl, rfl, fun _ => rfl⟩ rfl rfl (fun _ _ => packedBit_of_zero rfl) (.inl ⟨rfl, rfl⟩)

/-- R220: a reset keeps the collaborator, of which PHASE 0 says nothing. -/
theorem State.resetFrom_inv (s : State) : s.resetFrom.Inv :=
  { State.resetAt_inv s.draws with augmented := fun h : 3 ≤ Phase.idle.code.toNat => absurd h (by decide) }

/-- Settles O48: `State.reset` is the reset whose draws are numbered from 0. -/
theorem resetStateMeetsTheInvariant : Obligations.ResetStateMeetsTheInvariant := State.resetAt_inv 0

/-- Settles O49: by the move that the step makes, and a command's move by what it can do. -/
theorem everyStepKeepsTheInvariant : Obligations.EveryStepKeepsTheInvariant := by
  intro s t inv next
  obtain ⟨a, rest, -, read⟩ | ⟨a, v, rest, -, idle, rfl⟩ | ⟨rest, -, rfl⟩ | ⟨rest, rfl⟩ | ⟨rest, busy, run, -⟩ :=
    step_next_cases next
  · cases read
    exact (inv.inputs rest).hostRead _ _
  · exact (inv.inputs rest).hostWrite idle a v
  · exact State.resetFrom_inv _
  · exact inv.inputs rest
  · have inv := inv.inputs rest
    obtain ⟨i, decoded, effect⟩ | ⟨notDecoded, rfl⟩ := runCommand_cases run
    · exact inv.command busy decoded effect
    · exact inv.ended (inv.port_eq_none (fun h => notDecoded ⟨_, h⟩) fun h => notDecoded ⟨_, h⟩) nofun

/-! ### The finished symbol (R175, R176) -/

/-- R176: by its tag, each cell is one that some stage fills. -/
theorem State.Inv.cell_filled {s : State} (inv : s.Inv) (embedded : s.phase = .embedded) {r c : Nat} (hr : r < 21)
    (hc : c < 21) : (s.matrix.cell r c).filled = true := by
  have placed : 4 ≤ s.phase.code.toNat := by simp [embedded, Phase.code]
  obtain ⟨-, copies⟩ := inv.embedded embedded
  cases kind : tag r c with
  | light => rw [inv.light placed r c hr hc kind]
  | dark => rw [inv.dark placed r c hr hc kind]
  | dataSlot =>
    obtain ⟨i, visited⟩ := List.mem_iff_getElem?.mp (dataSlot_mem_visitOrder hr hc kind)
    rw [inv.data placed i r c visited]
  | formatReserved =>
    obtain ⟨k, names⟩ := Option.isSome_iff_exists.mp ((formatBitAt_isSome_iff r hr c hc).mpr kind)
    rw [copies r c k names hr hc]

/-- Settles O50: no cell of the row is unfilled, so the row's word takes no bit of the draw. -/
theorem finishedSymbolIsReadBackWhole : Obligations.FinishedSymbolIsReadBackWhole := by
  intro s inv embedded
  refine ⟨fun r c => inv.cell_filled embedded, fun idle r a hr names => ?_⟩
  exact ⟨_, exec_rd_matrixRow idle hr names,
    fun c hc => rowWord_getLsbD_of_filled _ hc (inv.cell_filled embedded hr hc), fun c => rowWord_getLsbD_of_ge _ _ _⟩

/-- R175: a cell that the tables of R172 and R173 name shows its bit of FMT. -/
theorem State.Inv.cell_val_of_formatBitAt {s : State} (inv : s.Inv) (embedded : s.phase = .embedded) {r c k : Nat}
    (hr : r < 21) (hc : c < 21) (names : formatBitAt r c = some k) :
    (s.matrix.cell r c).val = s.fmt.getLsbD k := by
  obtain ⟨-, copies⟩ := inv.embedded embedded
  rw [copies r c k names hr hc]

/-- Settles O51: each run of the copies reads its bits of FMT by the tables. -/
theorem bothFormatCopiesDecodeToTheField : Obligations.BothFormatCopiesDecodeToTheField := by
  intro s inv embedded val field
  obtain ⟨built, -⟩ := inv.embedded embedded
  have bit {r c k : Nat} := inv.cell_val_of_formatBitAt embedded (r := r) (c := c) (k := k)
  have rowLeft : ((List.range 6).map fun c => val 8 c) = (List.range 6).map fun c => s.fmt.getLsbD (14 - c) :=
    List.map_congr_left fun c hc => by
      rw [List.mem_range] at hc
      exact bit (by decide) (by omega) (formatBitAt_row_left hc)
  have rowRight : ((List.range 8).map fun i => val 8 (13 + i)) = (List.range 8).map fun i => s.fmt.getLsbD (7 - i) :=
    List.map_congr_left fun i hi => by
      rw [List.mem_range] at hi
      exact bit (by decide) (by omega) (formatBitAt_row_right hi)
  have columnTop : ((List.range 6).map fun r => val r 8) = (List.range 6).map fun r => s.fmt.getLsbD r :=
    List.map_congr_left fun r hr => by
      rw [List.mem_range] at hr
      exact bit (by omega) (by decide) (formatBitAt_column_top hr)
  have columnBottom : ((List.range 7).map fun i => val (14 + i) 8) = (List.range 7).map fun i => s.fmt.getLsbD (8 + i) :=
    List.map_congr_left fun i hi => by
      rw [List.mem_range] at hi
      exact bit (by omega) (by decide) (formatBitAt_column_bottom hi)
  have rowSeven : val 8 7 = s.fmt.getLsbD 8 := bit (by decide) (by decide) rfl
  have columnSeven : val 7 8 = s.fmt.getLsbD 6 := bit (by decide) (by decide) rfl
  have corner : val 8 8 = s.fmt.getLsbD 7 := bit (by decide) (by decide) rfl
  rw [rowLeft, rowRight, columnTop, columnBottom, rowSeven, columnSeven, corner]
  exact ⟨rfl, rfl, inv.fmt_eq built⟩

end Sys2Proof.Machine
end
